-- ==== Sys2Proof/Word.lean ====
section
/-!
DEFINITION. The widths of the values LCDB handles (00_scope.md R8, R9, R15).
-/

namespace Sys2Proof

/-- A byte of the wire, or a request code OP (u8). -/
abbrev Byte := BitVec 8

/-- A native pixel (u16): 00_scope.md R9. -/
abbrev Pixel := BitVec 16

/-- A coordinate or size operand, a two's-complement s32: 00_scope.md R8. -/
abbrev Coord := BitVec 32

/-- The codec's input operand (u32; bits 31:24 are ignored): 00_scope.md R9. -/
abbrev Rgb := BitVec 32

end Sys2Proof
end

