-- ==== Sys2Proof/Config.lean ====
section
/-!
DEFINITION. The parameters of LCDB (00_scope.md R7 to R14, 10_state.md R26) as one record, their
constraints, and the values the block takes at reset: the spec's defaults, and opaque constants where
the spec leaves a parameter OPEN.
-/

namespace Sys2Proof

/-- `PIXEL_WIRE_ORDER` (00_scope.md R14): which byte of a pixel leaves first. -/
inductive WireOrder where
  | lowFirst
  | highFirst
  deriving DecidableEq, Repr

/-- The nine wire opcode values (00_scope.md R12). -/
structure Opcodes where
  swreset : Byte
  slpout : Byte
  madctl : Byte
  colmod : Byte
  invctr : Byte
  caset : Byte
  raset : Byte
  dispon : Byte
  ramwr : Byte
  deriving DecidableEq, Repr

/-- The nine values in the order of 00_scope.md R12. -/
def Opcodes.all (o : Opcodes) : List Byte :=
  [o.swreset, o.slpout, o.madctl, o.colmod, o.invctr, o.caset, o.raset, o.dispon, o.ramwr]

/-- The five delay durations (00_scope.md R11): lower bounds that no rule computes with. -/
structure Durations where
  tRstLow : Nat
  tRstSettle : Nat
  tSwreset : Nat
  tSlpout : Nat
  tDispon : Nat
  deriving DecidableEq, Repr

/-- The order the source fixes among the delays (00_scope.md R11). -/
def Durations.wf (d : Durations) : Bool :=
  decide (d.tRstLow < d.tRstSettle) && decide (d.tRstLow ≤ d.tSlpout) &&
  decide (d.tRstSettle ≤ d.tSlpout) && decide (d.tSwreset ≤ d.tSlpout) &&
  decide (d.tDispon ≤ d.tSlpout)

/-- `LINE_POLARITY` (10_state.md R26): the pin level of each logical value. No rule depends on it. -/
structure LinePolarity where
  csAssertedLow : Bool
  dcCommandLow : Bool
  deriving DecidableEq, Repr

/-- The parameters, fixed before block reset (70_reset_and_hazards.md R253). -/
structure Config where
  width : Nat
  height : Nat
  colOffset : Nat
  rowOffset : Nat
  wireOrder : WireOrder
  madctlValue : Byte
  colmodValue : Byte
  opc : Opcodes
  durations : Durations
  rateSlow : Nat
  rateFast : Nat
  polarity : LinePolarity
  deriving DecidableEq, Repr

namespace Config

/-- The number of frame-buffer cells, `W * H` (20_memory.md R50). -/
def cells (c : Config) : Nat := c.width * c.height

/-- `COL_OFFSET`, the first column bound of the full-buffer window (30_encoding.md R80). -/
def colStart (c : Config) : BitVec 16 := BitVec.ofNat 16 c.colOffset

/-- `COL_OFFSET + W - 1`, the inclusive end (30_encoding.md R80). -/
def colEnd (c : Config) : BitVec 16 := BitVec.ofNat 16 (c.colOffset + c.width - 1)

/-- `ROW_OFFSET`, the first row bound (30_encoding.md R80). -/
def rowStart (c : Config) : BitVec 16 := BitVec.ofNat 16 c.rowOffset

/-- `ROW_OFFSET + H - 1`, the inclusive end (30_encoding.md R80). -/
def rowEnd (c : Config) : BitVec 16 := BitVec.ofNat 16 (c.rowOffset + c.height - 1)

/-- The spec's default opcode values (00_scope.md R12; general knowledge by the spec's own word). -/
def defaultOpcodes : Opcodes where
  swreset := 0x01
  slpout := 0x11
  madctl := 0x36
  colmod := 0x3A
  invctr := 0xB4
  caset := 0x2A
  raset := 0x2B
  dispon := 0x29
  ramwr := 0x2C

/-- `MADCTL_VALUE` is OPEN (00_scope.md R10, 92_eei_decisions.md D4): a free value, log 5. -/
opaque openMadctl : Byte

/-- `COLMOD_VALUE` is OPEN (00_scope.md R10, 92_eei_decisions.md D5): a free value, log 5. -/
opaque openColmod : Byte

/-- Free durations from which the five OPEN delays are built (00_scope.md R11), log 6. -/
opaque openDuration : Nat → Nat

/-- Free numbers from which the two OPEN bus rates are built (00_scope.md R13), log 6. -/
opaque openRate : Nat → Nat

/-- Every five durations that meet R11's inequalities are of this form, log 6. -/
def defaultDurations : Durations where
  tRstLow := openDuration 0
  tRstSettle := openDuration 0 + 1 + openDuration 1
  tSwreset := openDuration 2
  tSlpout := max (max (openDuration 0 + 1 + openDuration 1) (openDuration 2)) (openDuration 3) +
    openDuration 4
  tDispon := openDuration 3

/-- The parameters of the block after reset: the spec's defaults (R7, R12, R14, R26) and free values
for what it leaves OPEN (R10, R11, R13). -/
def default : Config where
  width := 128
  height := 128
  colOffset := 0
  rowOffset := 0
  wireOrder := .lowFirst
  madctlValue := openMadctl
  colmodValue := openColmod
  opc := defaultOpcodes
  durations := defaultDurations
  rateSlow := openRate 0
  rateFast := openRate 0 + 1 + openRate 1
  polarity := { csAssertedLow := true, dcCommandLow := true }

end Config

end Sys2Proof
end

