-- ==== Sys2Proof/Syntax.lean ====
section
/-!
DEFINITION. The two instruction sets of LCDB (00_scope.md R2, opcode_table.json) as one inductive type, the
host request record (30_encoding.md R70), and the source forms a host may write (R74, R75).
-/

namespace Sys2Proof

/-- One constructor per row of opcode_table.json: seven host requests, then nine wire commands.
A wire command carries the payload bytes its format gives it (30_encoding.md R77). -/
inductive Instr where
  /-- 43_sequences.md R190. -/
  | begin
  /-- 43_sequences.md R195. -/
  | display
  /-- 41_framebuffer.md R123. -/
  | clear (pix : Pixel)
  /-- 41_framebuffer.md R122. -/
  | drawPoint (x y : Coord) (pix : Pixel)
  /-- 41_framebuffer.md R124. -/
  | drawRectOutline (x y w h : Coord) (pix : Pixel)
  /-- 41_framebuffer.md R126. -/
  | fillRect (x y w h : Coord) (pix : Pixel)
  /-- 40_codec.md R100. -/
  | encode (rgb : Rgb)
  /-- Software reset: 42_wire_protocol.md R165. -/
  | swreset
  /-- Sleep-out: R166. -/
  | slpout
  /-- Memory-access-control: R167. -/
  | madctl (value : Byte)
  /-- Pixel-format-set: R168. -/
  | colmod (value : Byte)
  /-- Display-inversion-control: R169. -/
  | invctr (value : Byte)
  /-- Display-on: R170. -/
  | dispon
  /-- Column-address-set: R171; two 16-bit bounds, the end inclusive (R80). -/
  | caset (start stop : BitVec 16)
  /-- Row-address-set: R172; two 16-bit bounds, the end inclusive (R80). -/
  | raset (start stop : BitVec 16)
  /-- Memory-write: R173. -/
  | ramwr
  deriving DecidableEq, Repr

/-- Whether the instruction is a wire command (format WIRE_CMD) and not a host request. -/
def Instr.isWire : Instr → Bool
  | .begin => false
  | .display => false
  | .clear _ => false
  | .drawPoint _ _ _ => false
  | .drawRectOutline _ _ _ _ _ => false
  | .fillRect _ _ _ _ _ => false
  | .encode _ => false
  | .swreset => true
  | .slpout => true
  | .madctl _ => true
  | .colmod _ => true
  | .invctr _ => true
  | .dispon => true
  | .caset _ _ => true
  | .raset _ _ => true
  | .ramwr => true

/-- A host request record (30_encoding.md R70, 10_state.md R34). -/
structure Request where
  op : Byte
  x : Coord := 0
  y : Coord := 0
  wd : Coord := 0
  ht : Coord := 0
  pix : Pixel := 0
  rgb : Rgb := 0
  deriving DecidableEq, Repr

/-- What a host may write on a request line: a request (30_encoding.md R74), or one of the three
pseudo-requests (R75). -/
inductive Source where
  | core (i : Instr)
  | update
  | clearDefault
  | fillScreen (pix : Pixel)
  deriving DecidableEq, Repr

/-- An encoded instruction of either language: a record at the request port, or the bytes of a command on
the wire, opcode first (30_encoding.md R70, R76). -/
inductive Encoded where
  | record (r : Request)
  | command (bytes : List Byte)
  deriving DecidableEq, Repr

end Sys2Proof
end

