-- ==== Sys2Proof/WellFormed.lean ====
section
/-!
DEFINITION. The checks the spec puts on the parameters (00_scope.md R7, R11, R12, R13) and on the payload of
each wire command (30_encoding.md R80 to R83). Every operand of a host request is legal (R73; 41_framebuffer.md R129).
-/

namespace Sys2Proof

/-- The constraints on the parameters, one per line: dimensions and window bounds (R7), distinct opcodes
(R12, 30_encoding.md R79), delay order (R11), rate order (R13). -/
def Config.wf (c : Config) : Bool :=
  decide (1 ≤ c.width) && decide (1 ≤ c.height) &&
  decide (c.width - 1 + c.colOffset ≤ 0xFFFF) && decide (c.height - 1 + c.rowOffset ≤ 0xFFFF) &&
  decide c.opc.all.Nodup &&
  c.durations.wf &&
  decide (c.rateSlow < c.rateFast)

/-- The payload each wire command of LCDB carries is fixed by the parameters: MADCTL_VALUE (R81),
COLMOD_VALUE (R82), 0x00 (R83), and the full-buffer window (R80). -/
def Instr.wf (c : Config) : Instr → Bool
  | .begin => true
  | .display => true
  | .clear _ => true
  | .drawPoint _ _ _ => true
  | .drawRectOutline _ _ _ _ _ => true
  | .fillRect _ _ _ _ _ => true
  | .encode _ => true
  | .swreset => true
  | .slpout => true
  | .madctl v => v == c.madctlValue
  | .colmod v => v == c.colmodValue
  | .invctr v => v == 0x00
  | .dispon => true
  | .caset a b => a == c.colStart && b == c.colEnd
  | .raset a b => a == c.rowStart && b == c.rowEnd
  | .ramwr => true

/-- A source line is well formed when it names a host request or a pseudo-request: a wire command has
no request syntax (30_encoding.md R74, R79). -/
def Source.wf : Source → Bool
  | .core i => !i.isWire
  | .update => true
  | .clearDefault => true
  | .fillScreen _ => true

end Sys2Proof
end

