-- ==== Sys2Proof/Decode.lean ====
section
/-!
DEFINITION. The decoders of the two encoded languages (30_encoding.md R70 to R88), total and rejecting by name,
and the encoders. Byte order and record layout are decided here, once.
-/

namespace Sys2Proof

/-- `hi8(v)` (00_scope.md R16). -/
def hi8 (v : BitVec 16) : Byte := v.extractLsb' 8 8

/-- `lo8(v)` (00_scope.md R16). -/
def lo8 (v : BitVec 16) : Byte := v.extractLsb' 0 8

/-- A 16-bit value from its high and its low byte. -/
def ofHiLo (h l : Byte) : BitVec 16 := h ++ l

/-- Why a decoder rejects its input. -/
inductive DecodeError where
  /-- OP is not one of the seven request codes (30_encoding.md R72). -/
  | illegalRequest (op : Byte)
  /-- Fewer bytes than a request record has (30_encoding.md R70: a single length). -/
  | recordLength (n : Nat)
  /-- No opcode byte. -/
  | emptyCommand
  /-- An opcode LCDB never emits (30_encoding.md R79). -/
  | unknownOpcode (op : Byte)
  /-- A payload of another length than the opcode fixes (30_encoding.md R77). -/
  | payloadLength (op : Byte) (n : Nat)
  deriving DecidableEq, Repr

/-! ### Host requests (format HOST_REQ) -/

/-- The request map of 30_encoding.md R71; every other OP is illegal (R72). Fields an OP does not use are
ignored (R70). -/
def decodeRequest (r : Request) : Except DecodeError Instr :=
  if r.op = 0x01 then .ok .begin
  else if r.op = 0x02 then .ok .display
  else if r.op = 0x03 then .ok (.clear r.pix)
  else if r.op = 0x04 then .ok (.drawPoint r.x r.y r.pix)
  else if r.op = 0x05 then .ok (.drawRectOutline r.x r.y r.wd r.ht r.pix)
  else if r.op = 0x06 then .ok (.fillRect r.x r.y r.wd r.ht r.pix)
  else if r.op = 0x07 then .ok (.encode r.rgb)
  else .error (.illegalRequest r.op)

/-- DESIGN CHOICE (log 3): the record's bits as one number, the fields in the order of 30_encoding.md R70
from bit 0 up: OP 7:0, X 39:8, Y 71:40, Wd 103:72, Ht 135:104, PIX 151:136, RGB 183:152. -/
def Request.ofNat (w : Nat) : Request where
  op := BitVec.ofNat 8 w
  x := BitVec.ofNat 32 (w >>> 8)
  y := BitVec.ofNat 32 (w >>> 40)
  wd := BitVec.ofNat 32 (w >>> 72)
  ht := BitVec.ofNat 32 (w >>> 104)
  pix := BitVec.ofNat 16 (w >>> 136)
  rgb := BitVec.ofNat 32 (w >>> 152)

/-- The number whose bits are the record's, inverse of `Request.ofNat`. -/
def Request.toNat (r : Request) : Nat :=
  (r.rgb ++ r.pix ++ r.ht ++ r.wd ++ r.y ++ r.x ++ r.op).toNat

/-- The length of a record in bytes under the layout of log 3. -/
def recordBytes : Nat := 23

/-- Little-endian number of a list of bytes, the first byte the least significant. -/
def natOfBytes : List Byte → Nat
  | [] => 0
  | b :: bs => b.toNat + 256 * natOfBytes bs

/-- Decode a record laid out in bytes, lowest bits first (log 3). -/
def decodeRecordBytes (bs : List Byte) : Except DecodeError Instr :=
  if bs.length = recordBytes then decodeRequest (Request.ofNat (natOfBytes bs))
  else .error (.recordLength bs.length)

/-! ### Wire commands (format WIRE_CMD) -/

/-- A command without payload. -/
def decodeNoPayload (op : Byte) (i : Instr) : List Byte → Except DecodeError Instr
  | [] => .ok i
  | p => .error (.payloadLength op p.length)

/-- A command with a one-byte payload. -/
def decodeOneByte (op : Byte) (f : Byte → Instr) : List Byte → Except DecodeError Instr
  | [v] => .ok (f v)
  | p => .error (.payloadLength op p.length)

/-- A command with a window payload `[hi8(start), lo8(start), hi8(end), lo8(end)]` (30_encoding.md R80). -/
def decodeWindow (op : Byte) (f : BitVec 16 → BitVec 16 → Instr) : List Byte → Except DecodeError Instr
  | [sh, sl, eh, el] => .ok (f (ofHiLo sh sl) (ofHiLo eh el))
  | p => .error (.payloadLength op p.length)

/-- The wire command map of 30_encoding.md R77 over the opcode parameters. -/
def decodeWire (c : Config) : List Byte → Except DecodeError Instr
  | [] => .error .emptyCommand
  | op :: payload =>
    if op = c.opc.swreset then decodeNoPayload op .swreset payload
    else if op = c.opc.slpout then decodeNoPayload op .slpout payload
    else if op = c.opc.madctl then decodeOneByte op .madctl payload
    else if op = c.opc.colmod then decodeOneByte op .colmod payload
    else if op = c.opc.invctr then decodeOneByte op .invctr payload
    else if op = c.opc.dispon then decodeNoPayload op .dispon payload
    else if op = c.opc.caset then decodeWindow op .caset payload
    else if op = c.opc.raset then decodeWindow op .raset payload
    else if op = c.opc.ramwr then decodeNoPayload op .ramwr payload
    else .error (.unknownOpcode op)

/-- The payload length an opcode fixes (30_encoding.md R77, R87); none for an opcode LCDB never emits. -/
def payloadLengthOf (c : Config) (op : Byte) : Option Nat :=
  if op = c.opc.swreset then some 0
  else if op = c.opc.slpout then some 0
  else if op = c.opc.madctl then some 1
  else if op = c.opc.colmod then some 1
  else if op = c.opc.invctr then some 1
  else if op = c.opc.dispon then some 0
  else if op = c.opc.caset then some 4
  else if op = c.opc.raset then some 4
  else if op = c.opc.ramwr then some 0
  else none

/-- Decode either encoded form. -/
def decode (c : Config) : Encoded → Except DecodeError Instr
  | .record r => decodeRequest r
  | .command bytes => decodeWire c bytes

/-! ### Encoders -/

/-- The bytes of a window payload (30_encoding.md R80, 20_memory.md R58). -/
def windowPayload (start stop : BitVec 16) : List Byte := [hi8 start, lo8 start, hi8 stop, lo8 stop]

/-- The encoding of each instruction: the record of R71 with unused fields 0, or the bytes of R77. -/
def encode (c : Config) : Instr → Encoded
  | .begin => .record { op := 0x01 }
  | .display => .record { op := 0x02 }
  | .clear pix => .record { op := 0x03, pix := pix }
  | .drawPoint x y pix => .record { op := 0x04, x := x, y := y, pix := pix }
  | .drawRectOutline x y w h pix => .record { op := 0x05, x := x, y := y, wd := w, ht := h, pix := pix }
  | .fillRect x y w h pix => .record { op := 0x06, x := x, y := y, wd := w, ht := h, pix := pix }
  | .encode rgb => .record { op := 0x07, rgb := rgb }
  | .swreset => .command [c.opc.swreset]
  | .slpout => .command [c.opc.slpout]
  | .madctl v => .command [c.opc.madctl, v]
  | .colmod v => .command [c.opc.colmod, v]
  | .invctr v => .command [c.opc.invctr, v]
  | .dispon => .command [c.opc.dispon]
  | .caset a b => .command (c.opc.caset :: windowPayload a b)
  | .raset a b => .command (c.opc.raset :: windowPayload a b)
  | .ramwr => .command [c.opc.ramwr]

/-- The bytes a wire command puts on the wire; none for a host request, which emits nothing itself. -/
def wireBytes (c : Config) (i : Instr) : List Byte :=
  match encode c i with
  | .command bytes => bytes
  | .record _ => []

/-! ### The opcode table's numbering of bits -/

/-- The first `n` bytes of a word, the lowest bits first (the layout of log 3 and log 25). -/
def bytesOfNat : Nat → Nat → List Byte
  | 0, _ => []
  | n + 1, w => BitVec.ofNat 8 w :: bytesOfNat n (w >>> 8)

/-- A word read as a wire command. DESIGN CHOICE (log 25): 30_encoding.md R77 gives a command's bytes but no word form;
the opcode lies in bits 7:0, the first payload byte in bits 15:8 and the next ones above it in wire order, and bits above
the payload the opcode fixes are ignored. -/
def decodeWireWord (c : Config) (w : Nat) : Except DecodeError Instr :=
  match payloadLengthOf c (BitVec.ofNat 8 w) with
  | some n => decodeWire c (bytesOfNat (n + 1) w)
  | none => .error (.unknownOpcode (BitVec.ofNat 8 w))

/-- The instruction a word of opcode_table.json stands for. The table holds two languages and a word does not
say which it is of; DESIGN CHOICE (log 2): a request code is read as a request, any other word as a wire
command under the default opcodes, its payload laid out as log 25 says. Only the word 0x01 (BEGIN and SWRESET) belongs to both. -/
def decodeTableWord (nbits w : Nat) : Option Instr :=
  match decodeRequest (Request.ofNat (w % 2 ^ nbits)) with
  | .ok i => some i
  | .error _ =>
    match decodeWireWord Config.default (w % 2 ^ nbits) with
    | .ok i => some i
    | .error _ => none

/-! ### Pseudo-requests -/

/-- The request a source line stands for (30_encoding.md R75). -/
def Source.expand (c : Config) : Source → Instr
  | .core i => i
  | .update => .display
  | .clearDefault => .clear 0xFFFF
  | .fillScreen pix => .fillRect 0 0 (BitVec.ofNat 32 c.width) (BitVec.ofNat 32 c.height) pix

/-- The record HOST presents for a source line; none for a wire command, which no request can send
(30_encoding.md R79). -/
def Source.record (c : Config) (src : Source) : Option Request :=
  match encode c (src.expand c) with
  | .record r => some r
  | .command _ => none

end Sys2Proof
end

