-- ==== Sys2Proof/Machine/State.lean ====
section
/-!
DEFINITION. The state of LCDB (10_state.md R20 to R40) as plain data, with the parameters it runs under and the
outside agents' plain data, the stops of the model, and the state after block reset.
-/

namespace Sys2Proof.Machine

/-- PHASE (10_state.md R21). -/
inductive Phase where
  | uninit
  | reset
  | config
  | active
  deriving DecidableEq, Repr

/-- A level of the panel's reset line. -/
inductive Level where
  | low
  | high
  deriving DecidableEq, Repr

/-- RST_OUT (10_state.md R23). -/
inductive RstOut where
  | undriven
  | driven (l : Level)
  deriving DecidableEq, Repr

/-- CS_OUT in logical terms (10_state.md R24). -/
inductive CsLevel where
  | asserted
  | released
  deriving DecidableEq, Repr

/-- A mode of the DC line (10_state.md R25). -/
inductive DcMode where
  | cmd
  | data
  deriving DecidableEq, Repr

/-- DC_OUT (10_state.md R25). -/
inductive DcOut where
  | undriven
  | driven (m : DcMode)
  deriving DecidableEq, Repr

/-- RATE, the bus clock selection (10_state.md R27). -/
inductive Rate where
  | slow
  | fast
  deriving DecidableEq, Repr

/-- The five fixed delays (42_wire_protocol.md R150). -/
inductive DelayName where
  | rstLow
  | rstSettle
  | swreset
  | slpout
  | dispon
  deriving DecidableEq, Repr

/-- WAIT (10_state.md R33). -/
inductive Wait where
  | none
  | tx
  | delay (d : DelayName)
  deriving DecidableEq, Repr

/-- A micro-op (42_wire_protocol.md R150). -/
inductive MicroOp where
  | setRst (l : Level)
  | setCs (a : CsLevel)
  | setDc (m : DcMode)
  | tx (b : Byte)
  | txPix (k : Nat)
  | wait (d : DelayName)
  | setRate (r : Rate)
  | setPhase (p : Phase)
  | clearFb (p : Pixel)
  deriving DecidableEq, Repr

/-- A wire event (10_state.md R30). A byte carries the DC_OUT and RATE at the time of sending. -/
inductive Event where
  | rst (l : Level)
  | cs (a : CsLevel)
  | dc (m : DcMode)
  | byte (b : Byte) (dc : DcOut) (rate : Rate)
  | delay (d : DelayName)
  | rate (r : Rate)
  deriving DecidableEq, Repr

/-- The four LCDB fault codes (10_state.md R28, 60_exceptions.md R221 to R224). -/
inductive FaultCode where
  | illegalRequest
  | useBeforeBegin
  | beginRepeated
  | coordOverflow
  deriving DecidableEq, Repr

/-- FAULT, a set of fault codes: one membership bit per code (10_state.md R28). -/
structure FaultSet where
  illegalRequest : Bool := false
  useBeforeBegin : Bool := false
  beginRepeated : Bool := false
  coordOverflow : Bool := false
  deriving DecidableEq, Repr

/-- The frame buffer: the cells that hold a value, as (index, pixel) pairs with indices strictly rising; every
index not listed holds ⊥ (10_state.md R22, log 9). -/
abbrev Fb := List (Nat × Pixel)

/-- The read ports of HOST (20_memory.md R51). -/
inductive ReadPort where
  | status
  | rPix
  deriving DecidableEq, Repr

/-- One turn of an agent, or the external event of block reset (00_scope.md R6, 70_reset_and_hazards.md R250). -/
inductive Turn where
  | seq
  | xport
  | timer
  | hostPresents
  | hostReads (p : ReadPort)
  | blockReset
  deriving DecidableEq, Repr

/-- Why the model stops with a fault. LCDB's own faults are not here: entering one is a next state
(60_exceptions.md R228). -/
inductive Fault where
  /-- TX_PIX read a cell that holds ⊥ (42_wire_protocol.md R156: it must fault; log 23). Safe; no run reaches it. -/
  | fbNoValue (i : Nat)
  /-- TX_PIX named an index outside `[0, W*H)` (20_memory.md R50; log 13). Safe; no run reaches it. -/
  | fbNoCell (i : Nat)
  deriving DecidableEq, Repr

/-- Why the model has no meaning for an instruction. -/
inductive Refusal where
  /-- Raised only by an arm of `exec` whose instruction has no meaning yet; safe. No arm raises it. -/
  | notModelled (mnemonic : String)
  deriving DecidableEq, Repr

/-- The state tuple of 10_state.md R20, the parameters (constants that no step writes, log 4), and the outside
agents as plain data (the model's own fields, log 7). -/
structure State where
  /-- The parameters of 00_scope.md R7 to R14. -/
  cfg : Config
  /-- R21. -/
  phase : Phase
  /-- R22. -/
  fb : Fb
  /-- R23. -/
  rstOut : RstOut
  /-- R24. -/
  csOut : CsLevel
  /-- R25. -/
  dcOut : DcOut
  /-- R27. -/
  rate : Rate
  /-- R28. -/
  fault : FaultSet
  /-- R29; none is the spec's ⊥. -/
  rPix : Option Pixel
  /-- R30, newest event first (log 11); `State.trace` is TRACE in its own order. -/
  traceRev : List Event
  /-- R34. -/
  req : Option Request
  /-- R32. -/
  script : List MicroOp
  /-- R33. -/
  wait : Wait
  /-- The requests HOST has still to present, in order (43_sequences.md R199; log 7). -/
  host : List Request
  /-- The turns that come next, the first one first (log 7). -/
  turns : List Turn
  /-- Whether XPORT takes its completion when no turn is listed (42_wire_protocol.md R161; log 7). -/
  xportReady : Bool
  /-- Whether TIMER takes its expiry when no turn is listed (42_wire_protocol.md R162; log 7). -/
  timerReady : Bool
  deriving DecidableEq, Repr

namespace State

/-- TRACE in its own order, oldest event first (10_state.md R30). -/
def trace (s : State) : List Event := s.traceRev.reverse

/-- The reset values of 10_state.md R40 under given parameters, with no outside activity listed (log 7). -/
def resetWith (c : Config) : State where
  cfg := c
  phase := .uninit
  fb := []
  rstOut := .undriven
  csOut := .released
  dcOut := .undriven
  rate := .slow
  fault := {}
  rPix := none
  traceRev := []
  req := none
  script := []
  wait := .none
  host := []
  turns := []
  xportReady := true
  timerReady := true

/-- The machine right after block reset (70_reset_and_hazards.md R250) under the default parameters. -/
def reset : State := resetWith Config.default

end State

end Sys2Proof.Machine
end

