-- ==== Sys2Proof/Machine/Operands.lean ====
section
/-!
DEFINITION. The operand forms of the requests: coordinates as mathematical integers, bounds, the range check, and
the sets of cells the drawing requests write (41_framebuffer.md R120 to R127, 60_exceptions.md R225).
-/

namespace Sys2Proof.Machine

/-- An s32 operand as a mathematical integer (00_scope.md R15). -/
abbrev coord (v : Coord) : Int := v.toInt

/-- `fits_s32(v)` (60_exceptions.md R225). -/
def fitsS32 (v : Int) : Bool := decide (-2 ^ 31 ≤ v) && decide (v ≤ 2 ^ 31 - 1)

/-- Whether both sums of the range check of 41_framebuffer.md R121 step 2 fit. -/
def rectFits (x y w h : Coord) : Bool :=
  fitsS32 (coord x + coord w) && fitsS32 (coord y + coord h)

/-- `InB(x, y)` (41_framebuffer.md R120). -/
def inB (c : Config) (x y : Int) : Bool :=
  decide (0 ≤ x) && decide (x < c.width) && decide (0 ≤ y) && decide (y < c.height)

/-- The cell index of an in-bounds pixel, `y*W + x` (20_memory.md R50). -/
def cellIndex (c : Config) (x y : Int) : Nat := (y * c.width + x).toNat

/-- The column of a cell index (20_memory.md R50). -/
def cellX (c : Config) (i : Nat) : Int := ((i % c.width : Nat) : Int)

/-- The row of a cell index (20_memory.md R50). -/
def cellY (c : Config) (i : Nat) : Int := ((i / c.width : Nat) : Int)

/-- The cell set of FILL_RECT, clipped on all four sides (41_framebuffer.md R126). -/
def inFill (c : Config) (x y w h : Coord) (cx cy : Int) : Bool :=
  decide (max (coord x) 0 ≤ cx) && decide (cx < min (coord x + coord w) c.width) &&
  decide (max (coord y) 0 ≤ cy) && decide (cy < min (coord y + coord h) c.height)

/-- The cell set of DRAW_RECT_OUTLINE, in the set form of 41_framebuffer.md R124. -/
def inOutline (c : Config) (x y w h : Coord) (cx cy : Int) : Bool :=
  decide (coord x ≤ cx) && decide (cx < coord x + coord w) &&
  decide (coord y ≤ cy) && decide (cy < coord y + coord h) &&
  (decide (cx = coord x) || decide (cx = coord x + coord w - 1) ||
   decide (cy = coord y) || decide (cy = coord y + coord h - 1)) &&
  inB c cx cy

end Sys2Proof.Machine
end

