-- ==== Sys2Proof/Machine/Ops.lean ====
section
/-!
DEFINITION. The shared operations over the state: the frame-buffer accesses, fault entry, the micro-operations
(42_wire_protocol.md R150 to R159) and the framing of wire commands (R160).
-/

namespace Sys2Proof.Machine

/-! ### Frame-buffer memory -/

/-- What an index that the list does not hold reads as: ⊥ (10_state.md R22). -/
def Fb.unlisted : Option Pixel := none

/-- The content of the cell with index `i`. -/
def Fb.read (i : Nat) : Fb → Option Pixel
  | [] => Fb.unlisted
  | (j, q) :: rest => if j = i then some q else Fb.read i rest

/-- `MemWrite(i, 2, p)` (00_scope.md R16, 20_memory.md R52), in the canonical form. -/
def Fb.write (i : Nat) (p : Pixel) : Fb → Fb
  | [] => [(i, p)]
  | (j, q) :: rest =>
    if i < j then (i, p) :: (j, q) :: rest
    else if i = j then (i, p) :: rest
    else (j, q) :: Fb.write i p rest

/-- One pass over the `n` cells from index `i` up that gives every cell in `sel` the value `p`: the same
frame buffer as one MemWrite per selected cell (20_memory.md R54). -/
def Fb.paintFrom (sel : Nat → Bool) (p : Pixel) : Nat → Nat → Fb → Fb
  | 0, _, fb => fb
  | n + 1, i, [] =>
    if sel i then (i, p) :: Fb.paintFrom sel p n (i + 1) [] else Fb.paintFrom sel p n (i + 1) []
  | n + 1, i, (j, q) :: rest =>
    if j = i then (i, if sel i then p else q) :: Fb.paintFrom sel p n (i + 1) rest
    else if sel i then (i, p) :: Fb.paintFrom sel p n (i + 1) ((j, q) :: rest)
    else Fb.paintFrom sel p n (i + 1) ((j, q) :: rest)

/-- Write `p` to every selected cell of `[0, n)`. -/
def Fb.paint (n : Nat) (sel : Nat → Bool) (p : Pixel) (fb : Fb) : Fb := Fb.paintFrom sel p n 0 fb

/-- Indices strictly rising, the first at least `lo` and all below `n`. -/
def Fb.wfFrom (n : Nat) : Nat → Fb → Bool
  | _, [] => true
  | lo, (j, _) :: rest => decide (lo ≤ j) && decide (j < n) && Fb.wfFrom n (j + 1) rest

/-- The canonical form of a frame buffer of `n` cells: indices strictly rising and in `[0, n)`. No entry can
equal what an unlisted index reads as, since that is ⊥. -/
def Fb.wf (n : Nat) (fb : Fb) : Bool := Fb.wfFrom n 0 fb

/-- `MemRead(i, 2)` (00_scope.md R16). Reading ⊥ faults (00_scope.md R15); so does an index that is no cell. -/
def memRead (s : State) (i : Nat) : Except Fault Pixel :=
  if i < s.cfg.cells then
    match Fb.read i s.fb with
    | some p => .ok p
    | none => .error (.fbNoValue i)
  else .error (.fbNoCell i)

/-- `MemWrite(i, 2, p)`. -/
def memWrite (i : Nat) (p : Pixel) (s : State) : State := { s with fb := Fb.write i p s.fb }

/-- `Plot(x, y, p)` (41_framebuffer.md R120). -/
def plot (x y : Int) (p : Pixel) (s : State) : State :=
  if inB s.cfg x y then memWrite (cellIndex s.cfg x y) p s else s

/-- All the cell writes of a request that writes `p` to the cells `(cx, cy)` of a set (20_memory.md R54). -/
def paintCells (cell : Int → Int → Bool) (p : Pixel) (s : State) : State :=
  { s with fb := Fb.paint s.cfg.cells (fun i => cell (cellX s.cfg i) (cellY s.cfg i)) p s.fb }

/-- `for i in [0, W*H): MemWrite(i, 2, p)` (41_framebuffer.md R123, 42_wire_protocol.md R158). -/
def fillAll (p : Pixel) (s : State) : State :=
  { s with fb := Fb.paint s.cfg.cells (fun _ => true) p s.fb }

/-! ### Faults -/

/-- `FAULT ∪ {code}`. -/
def FaultSet.insert (c : FaultCode) (f : FaultSet) : FaultSet :=
  match c with
  | .illegalRequest => { f with illegalRequest := true }
  | .useBeforeBegin => { f with useBeforeBegin := true }
  | .beginRepeated => { f with beginRepeated := true }
  | .coordOverflow => { f with coordOverflow := true }

/-- Whether the code is in the set. -/
def FaultSet.has (c : FaultCode) (f : FaultSet) : Bool :=
  match c with
  | .illegalRequest => f.illegalRequest
  | .useBeforeBegin => f.useBeforeBegin
  | .beginRepeated => f.beginRepeated
  | .coordOverflow => f.coordOverflow

/-- `FAULT = ∅`. -/
def FaultSet.isEmpty (f : FaultSet) : Bool :=
  !f.illegalRequest && !f.useBeforeBegin && !f.beginRepeated && !f.coordOverflow

/-- How many codes the set holds. -/
def FaultSet.count (f : FaultSet) : Nat :=
  f.illegalRequest.toNat + f.useBeforeBegin.toNat + f.beginRepeated.toNat + f.coordOverflow.toNat

/-- `raise Fault(code)`: the fault entry of 60_exceptions.md R228. There is no return from it (R229). -/
def raiseFault (c : FaultCode) (s : State) : State :=
  { s with fault := s.fault.insert c, req := none }

/-- The halted condition (10_state.md R28). -/
def State.halted (s : State) : Bool := !s.fault.isEmpty

/-- BUSY (10_state.md R31). -/
def State.busy (s : State) : Bool := !s.script.isEmpty || decide (s.wait ≠ .none)

/-! ### Micro-operations -/

/-- `Emit(e)` (00_scope.md R16). -/
def emit (e : Event) (s : State) : State := { s with traceRev := e :: s.traceRev }

/-- R151. -/
def setRst (l : Level) (s : State) : State := emit (.rst l) { s with rstOut := .driven l }

/-- R152. -/
def setCs (a : CsLevel) (s : State) : State := emit (.cs a) { s with csOut := a }

/-- R159. -/
def setDc (m : DcMode) (s : State) : State := emit (.dc m) { s with dcOut := .driven m }

/-- R153. -/
def tx (b : Byte) (s : State) : State := { emit (.byte b s.dcOut s.rate) s with wait := .tx }

/-- R154. -/
def startDelay (d : DelayName) (s : State) : State := { emit (.delay d) s with wait := .delay d }

/-- R155. -/
def setRate (r : Rate) (s : State) : State := emit (.rate r) { s with rate := r }

/-- R157. -/
def setPhase (p : Phase) (s : State) : State := { s with phase := p }

/-- The byte of pixel `p` that stream byte `k` is (20_memory.md R56). -/
def pixelByte (o : WireOrder) (k : Nat) (p : Pixel) : Byte :=
  match o with
  | .lowFirst => if k % 2 = 0 then lo8 p else hi8 p
  | .highFirst => if k % 2 = 0 then hi8 p else lo8 p

/-- R156. -/
def txPix (k : Nat) (s : State) : Host.Outcome State Fault Refusal :=
  match memRead s (k / 2) with
  | .ok p => .next (tx (pixelByte s.cfg.wireOrder k p) s)
  | .error f => .fault f

/-- Perform one micro-op (42_wire_protocol.md R150); the script of `s` is what follows it. -/
def microOp (m : MicroOp) (s : State) : Host.Outcome State Fault Refusal :=
  match m with
  | .setRst l => .next (setRst l s)
  | .setCs a => .next (setCs a s)
  | .setDc d => .next (setDc d s)
  | .tx b => .next (tx b s)
  | .txPix k => txPix k s
  | .wait d => .next (startDelay d s)
  | .setRate r => .next (setRate r s)
  | .setPhase p => .next (setPhase p s)
  | .clearFb p => .next (fillAll p s)

/-! ### Framing and scripts -/

/-- `Cmd(op, payload)` (42_wire_protocol.md R160). -/
def cmdFrame (op : Byte) : List Byte → List MicroOp
  | [] => [.setCs .asserted, .setDc .cmd, .tx op, .setCs .released]
  | b :: bs =>
    [.setCs .asserted, .setDc .cmd, .tx op, .setDc .data] ++ (b :: bs).map MicroOp.tx ++ [.setCs .released]

/-- `Stream` (42_wire_protocol.md R174). -/
def streamScript (c : Config) : List MicroOp :=
  [.setCs .asserted, .setDc .data] ++ (List.range (2 * c.cells)).map MicroOp.txPix ++ [.setCs .released]

/-- `SCRIPT <- list` (00_scope.md R16). -/
def loadScript (ms : List MicroOp) (s : State) : State := { s with script := ms }

/-- Begin a list of micro-ops ahead of the script: perform its first and leave the others as the script's
next ones. This is the script step of R150 on `ms ++ SCRIPT`. -/
def startFrame (ms : List MicroOp) (s : State) : Host.Outcome State Fault Refusal :=
  match ms ++ s.script with
  | [] => .next s
  | m :: rest => microOp m { s with script := rest }

/-- The framing of a wire command under the parameters (42_wire_protocol.md R165 to R173). -/
def wireFrame (c : Config) (i : Instr) : List MicroOp :=
  match wireBytes c i with
  | [] => []
  | op :: payload => cmdFrame op payload

end Sys2Proof.Machine
end

