-- ==== Sys2Proof/Machine/Codec.lean ====
section
/-!
DEFINITION. The Color Codec (40_codec.md): the ENCODE request, and the inverse transform of R102.
-/

namespace Sys2Proof.Machine

/-- The pre-swap value `P = B5 ++ G6 ++ R5` (40_codec.md R100). -/
def packBgr565 (rgb : Rgb) : Pixel :=
  rgb.extractLsb' 3 5 ++ rgb.extractLsb' 10 6 ++ rgb.extractLsb' 19 5

/-- The octet swap `v[7:0] ++ v[15:8]` (40_codec.md R100). -/
def swapOctets (v : Pixel) : Pixel := lo8 v ++ hi8 v

/-- `Encode(rgb)` (40_codec.md R100): pack, swap, invert. Neither swap nor inversion may be dropped (R101). -/
def encodeRgb (rgb : Rgb) : Pixel := ~~~(swapOctets (packBgr565 rgb))

/-- `Decode(pix)` (40_codec.md R102): un-invert, un-swap, un-pack. Not a request of LCDB. -/
def decodePix (pix : Pixel) : Rgb :=
  let p := swapOctets (~~~pix)
  (0 : BitVec 8) ++ p.extractLsb' 0 5 ++ (0 : BitVec 3) ++ p.extractLsb' 5 6 ++ (0 : BitVec 2) ++
    p.extractLsb' 11 5 ++ (0 : BitVec 3)

/-- `PIX_BLACK` (40_codec.md R106). -/
def pixBlack : Pixel := encodeRgb 0x000000

/-- ENCODE (40_codec.md R100): accepted in every phase, writes R_PIX only. -/
def execEncode (rgb : Rgb) (s : State) : Host.Outcome State Fault Refusal :=
  .next { s with rPix := some (encodeRgb rgb) }

end Sys2Proof.Machine
end

