-- ==== Sys2Proof/Machine/FrameBuffer.lean ====
section
/-!
DEFINITION. The frame-buffer requests (41_framebuffer.md): CLEAR, DRAW_POINT, DRAW_RECT_OUTLINE, FILL_RECT. None
emits a wire event.
-/

namespace Sys2Proof.Machine

/-- The check of 41_framebuffer.md R121 step 1, then the request's effect. -/
def afterBegin (k : State → Host.Outcome State Fault Refusal) (s : State) :
    Host.Outcome State Fault Refusal :=
  if s.phase = .uninit then .next (raiseFault .useBeforeBegin s) else k s

/-- The check of 41_framebuffer.md R121 step 2, then the request's effect. -/
def ifRectFits (x y w h : Coord) (k : State → Host.Outcome State Fault Refusal) (s : State) :
    Host.Outcome State Fault Refusal :=
  if rectFits x y w h then k s else .next (raiseFault .coordOverflow s)

/-- CLEAR (R123). -/
def execClear (pix : Pixel) (s : State) : Host.Outcome State Fault Refusal :=
  afterBegin (fun s => .next (fillAll pix s)) s

/-- DRAW_POINT (R122). -/
def execDrawPoint (x y : Coord) (pix : Pixel) (s : State) : Host.Outcome State Fault Refusal :=
  afterBegin (fun s => .next (plot (coord x) (coord y) pix s)) s

/-- DRAW_RECT_OUTLINE (R124). -/
def execDrawRectOutline (x y w h : Coord) (pix : Pixel) (s : State) : Host.Outcome State Fault Refusal :=
  afterBegin (ifRectFits x y w h fun s => .next (paintCells (inOutline s.cfg x y w h) pix s)) s

/-- FILL_RECT (R126). -/
def execFillRect (x y w h : Coord) (pix : Pixel) (s : State) : Host.Outcome State Fault Refusal :=
  afterBegin (ifRectFits x y w h fun s => .next (paintCells (inFill s.cfg x y w h) pix s)) s

end Sys2Proof.Machine
end

