-- ==== Sys2Proof/Machine/Sequences.lean ====
section
/-!
DEFINITION. The driver sequences BEGIN and DISPLAY (43_sequences.md).
-/

namespace Sys2Proof.Machine

/-- `INVCTR_VALUE` (00_scope.md R10, 30_encoding.md R83). -/
def invctrValue : Byte := 0x00

/-- `BeginScript` (43_sequences.md R190). -/
def beginScript (c : Config) : List MicroOp :=
  [.setPhase .reset, .setRst .low, .wait .rstLow, .setRst .high, .wait .rstSettle, .setPhase .config] ++
  cmdFrame c.opc.swreset [] ++ [.wait .swreset] ++
  cmdFrame c.opc.slpout [] ++ [.wait .slpout] ++
  cmdFrame c.opc.madctl [c.madctlValue] ++
  cmdFrame c.opc.colmod [c.colmodValue] ++
  cmdFrame c.opc.invctr [invctrValue] ++
  cmdFrame c.opc.dispon [] ++ [.wait .dispon] ++
  [.setRate .fast, .setPhase .active, .clearFb pixBlack]

/-- `DisplayScript` (43_sequences.md R195). -/
def displayScript (c : Config) : List MicroOp :=
  cmdFrame c.opc.caset (windowPayload c.colStart c.colEnd) ++
  cmdFrame c.opc.raset (windowPayload c.rowStart c.rowEnd) ++
  cmdFrame c.opc.ramwr [] ++ streamScript c

/-- BEGIN (43_sequences.md R190): accepted once, in UNINIT. -/
def execBegin (s : State) : Host.Outcome State Fault Refusal :=
  if s.phase = .uninit then .next (loadScript (beginScript s.cfg) s)
  else .next (raiseFault .beginRepeated s)

/-- DISPLAY (43_sequences.md R195). -/
def execDisplay (s : State) : Host.Outcome State Fault Refusal :=
  afterBegin (fun s => .next (loadScript (displayScript s.cfg) s)) s

end Sys2Proof.Machine
end

