-- ==== Sys2Proof/Machine/Wire.lean ====
section
/-!
DEFINITION. The wire commands (42_wire_protocol.md R165 to R173). SEQ runs one micro-op a step, so executing a
command is the step that begins its framing `Cmd(op, payload)` (R160): its first micro-op is performed and its
others become the next ones of SCRIPT (log 1).
-/

namespace Sys2Proof.Machine

/-- Software reset (R165): `Cmd(OPC_SWRESET, [])`. It resets the panel, not LCDB (70_reset_and_hazards.md R250). -/
def execSwreset (s : State) : Host.Outcome State Fault Refusal :=
  startFrame (cmdFrame s.cfg.opc.swreset []) s

/-- Sleep-out (R166): `Cmd(OPC_SLPOUT, [])`. -/
def execSlpout (s : State) : Host.Outcome State Fault Refusal :=
  startFrame (cmdFrame s.cfg.opc.slpout []) s

/-- Memory-access-control (R167): `Cmd(OPC_MADCTL, [value])`. -/
def execMadctl (value : Byte) (s : State) : Host.Outcome State Fault Refusal :=
  startFrame (cmdFrame s.cfg.opc.madctl [value]) s

/-- Pixel-format-set (R168): `Cmd(OPC_COLMOD, [value])`. -/
def execColmod (value : Byte) (s : State) : Host.Outcome State Fault Refusal :=
  startFrame (cmdFrame s.cfg.opc.colmod [value]) s

/-- Display-inversion-control (R169): `Cmd(OPC_INVCTR, [value])`. -/
def execInvctr (value : Byte) (s : State) : Host.Outcome State Fault Refusal :=
  startFrame (cmdFrame s.cfg.opc.invctr [value]) s

/-- Display-on (R170): `Cmd(OPC_DISPON, [])`. -/
def execDispon (s : State) : Host.Outcome State Fault Refusal :=
  startFrame (cmdFrame s.cfg.opc.dispon []) s

/-- Column-address-set (R171): `Cmd(OPC_CASET, window bounds)`. -/
def execCaset (start stop : BitVec 16) (s : State) : Host.Outcome State Fault Refusal :=
  startFrame (cmdFrame s.cfg.opc.caset (windowPayload start stop)) s

/-- Row-address-set (R172): `Cmd(OPC_RASET, window bounds)`. -/
def execRaset (start stop : BitVec 16) (s : State) : Host.Outcome State Fault Refusal :=
  startFrame (cmdFrame s.cfg.opc.raset (windowPayload start stop)) s

/-- Memory-write (R173): `Cmd(OPC_RAMWR, [])`; chip-select is released before the stream (90_conflicts.md C2). -/
def execRamwr (s : State) : Host.Outcome State Fault Refusal :=
  startFrame (cmdFrame s.cfg.opc.ramwr []) s

end Sys2Proof.Machine
end

