-- ==== Sys2Proof/Machine/Dispatch.lean ====
section
/-!
DEFINITION. One arm per instruction of opcode_table.json.
-/

namespace Sys2Proof.Machine

def exec (i : Instr) (s : State) : Host.Outcome State Fault Refusal :=
  match i with
  | .begin => Sys2Proof.Machine.execBegin s
  | .display => Sys2Proof.Machine.execDisplay s
  | .clear pix => Sys2Proof.Machine.execClear pix s
  | .drawPoint x y pix => Sys2Proof.Machine.execDrawPoint x y pix s
  | .drawRectOutline x y w h pix => Sys2Proof.Machine.execDrawRectOutline x y w h pix s
  | .fillRect x y w h pix => Sys2Proof.Machine.execFillRect x y w h pix s
  | .encode rgb => Sys2Proof.Machine.execEncode rgb s
  | .swreset => Sys2Proof.Machine.execSwreset s
  | .slpout => Sys2Proof.Machine.execSlpout s
  | .madctl value => Sys2Proof.Machine.execMadctl value s
  | .colmod value => Sys2Proof.Machine.execColmod value s
  | .invctr value => Sys2Proof.Machine.execInvctr value s
  | .dispon => Sys2Proof.Machine.execDispon s
  | .caset start stop => Sys2Proof.Machine.execCaset start stop s
  | .raset start stop => Sys2Proof.Machine.execRaset start stop s
  | .ramwr => Sys2Proof.Machine.execRamwr s

end Sys2Proof.Machine
end

