-- ==== Sys2Proof/Machine/Flags.lean ====
section
/-!
DEFINITION. LCDB has no flags or condition codes (10_state.md R36). Its status indications are the computed STATUS
view (R35); here too are HOST's read port and the pin view of R26.
-/

namespace Sys2Proof.Machine

/-- The encoding of PHASE (10_state.md R21). -/
def Phase.code : Phase → BitVec 2
  | .uninit => 0
  | .reset => 1
  | .config => 2
  | .active => 3

/-- The encoding of RATE (10_state.md R27). -/
def Rate.code : Rate → BitVec 1
  | .slow => 0
  | .fast => 1

/-- The number of a fault code (10_state.md R28). -/
def FaultCode.number : FaultCode → Nat
  | .illegalRequest => 1
  | .useBeforeBegin => 2
  | .beginRepeated => 3
  | .coordOverflow => 4

/-- STATUS (10_state.md R35), the most significant field first: reserved 15:9, F_COORD_OVERFLOW 8,
F_BEGIN_REPEATED 7, F_USE_BEFORE_BEGIN 6, F_ILLEGAL_REQUEST 5, FAULTED 4, RATE 3, PHASE 2:1, BUSY 0. -/
def State.status (s : State) : BitVec 16 :=
  (0 : BitVec 7) ++ BitVec.ofBool s.fault.coordOverflow ++ BitVec.ofBool s.fault.beginRepeated ++
  BitVec.ofBool s.fault.useBeforeBegin ++ BitVec.ofBool s.fault.illegalRequest ++
  BitVec.ofBool s.halted ++ s.rate.code ++ s.phase.code ++ BitVec.ofBool s.busy

/-- What HOST gets at a port (20_memory.md R51), at any time (10_state.md R29, R35): STATUS, or the content of R_PIX,
where ⊥ is no value (93_implementation_defined.md U6; log 22). -/
def hostRead (p : ReadPort) (s : State) : Option (BitVec 16) :=
  match p with
  | .status => some s.status
  | .rPix => s.rPix

/-- The level of the CS pin under LINE_POLARITY (10_state.md R26). -/
def State.csPin (s : State) : Level :=
  match s.csOut, s.cfg.polarity.csAssertedLow with
  | .asserted, true => .low
  | .asserted, false => .high
  | .released, true => .high
  | .released, false => .low

/-- The level of the DC pin under LINE_POLARITY (10_state.md R26); none while undriven. -/
def State.dcPin (s : State) : Option Level :=
  match s.dcOut, s.cfg.polarity.dcCommandLow with
  | .undriven, _ => none
  | .driven .cmd, true => some .low
  | .driven .cmd, false => some .high
  | .driven .data, true => some .high
  | .driven .data, false => some .low

/-- The level of the reset pin, physical in the spec (10_state.md R26); none while undriven. -/
def State.rstPin (s : State) : Option Level :=
  match s.rstOut with
  | .undriven => none
  | .driven l => some l

/-- The duration parameter of a delay (00_scope.md R11), the lower bound its `Delay` event stands for. -/
def durationOf (c : Config) : DelayName → Nat
  | .rstLow => c.durations.tRstLow
  | .rstSettle => c.durations.tRstSettle
  | .swreset => c.durations.tSwreset
  | .slpout => c.durations.tSlpout
  | .dispon => c.durations.tDispon

/-- The bus rate a RATE selection stands for (00_scope.md R13). -/
def rateOf (c : Config) : Rate → Nat
  | .slow => c.rateSlow
  | .fast => c.rateFast

end Sys2Proof.Machine
end

