-- ==== Sys2Proof/Machine/Sequencer.lean ====
section
/-!
DEFINITION. The steps of the agents (00_scope.md R6): SEQ's acceptance and script steps, XPORT, TIMER, HOST and
block reset, which of them moves, and where a word is placed so that the next step runs it.
-/

namespace Sys2Proof.Machine

/-! ### SEQ -/

/-- The bytes of the TX micro-ops at the head of a script, and what follows them. -/
def takeTx : List MicroOp → List Byte × List MicroOp
  | .tx b :: rest => ((b :: (takeTx rest).1), (takeTx rest).2)
  | ms => ([], ms)

/-- The whole command frame of R160 at the head of a script, as its bytes, and what follows it. -/
def takeFrame : List MicroOp → Option (List Byte × List MicroOp)
  | .setCs .asserted :: .setDc .cmd :: .tx op :: .setCs .released :: rest => some ([op], rest)
  | .setCs .asserted :: .setDc .cmd :: .tx op :: .setDc .data :: rest =>
    match takeTx rest with
    | (b :: bs, .setCs .released :: rest') => some (op :: b :: bs, rest')
    | _ => none
  | _ => none

/-- The wire command whose frame stands at the head of a script, decoded from its bytes (log 1). -/
def fetchWire (c : Config) (script : List MicroOp) : Option (Instr × List MicroOp) :=
  match takeFrame script with
  | none => none
  | some (bytes, rest) =>
    match decodeWire c bytes with
    | .ok i => some (i, rest)
    | .error _ => none

/-- SEQ accepts a request (10_state.md R31, R34): REQ is consumed, the OP is decoded first
(60_exceptions.md R227), and the request is performed or faults (R221). -/
def accept (r : Request) (s : State) : Host.Outcome State Fault Refusal :=
  match decodeRequest r with
  | .ok i => exec i { s with req := none }
  | .error _ => .next (raiseFault .illegalRequest { s with req := none })

/-- SEQ's script step (42_wire_protocol.md R150). Where a whole command frame begins, it is that wire command's
first step; otherwise the head micro-op is performed. Both are "perform the head, drop it". -/
def scriptStep (s : State) : Host.Outcome State Fault Refusal :=
  match fetchWire s.cfg s.script with
  | some (i, rest) => exec i { s with script := rest }
  | none =>
    match s.script with
    | [] => .next s
    | m :: rest => microOp m { s with script := rest }

/-- SEQ has a step (10_state.md R31, R33; 42_wire_protocol.md R150; 60_exceptions.md R229). -/
def seqEnabled (s : State) : Bool :=
  decide (s.wait = .none) && !s.halted && (!s.script.isEmpty || s.req.isSome)

/-- SEQ's turn. Without an enabled step nothing changes: SEQ is held. -/
def seqTurn (s : State) : Host.Outcome State Fault Refusal :=
  if s.wait = .none ∧ s.halted = false then
    match s.script, s.req with
    | _ :: _, _ => scriptStep s
    | [], some r => accept r s
    | [], none => .next s
  else .next s

/-! ### The other agents -/

/-- XPORT's *complete* (42_wire_protocol.md R161). -/
def xportTurn (s : State) : State :=
  match s.wait with
  | .tx => { s with wait := .none }
  | _ => s

/-- TIMER's *expire* (42_wire_protocol.md R162). -/
def timerTurn (s : State) : State :=
  match s.wait with
  | .delay _ => { s with wait := .none }
  | _ => s

/-- HOST presents its next request, only while REQ = NONE (10_state.md R31). -/
def hostPresents (s : State) : State :=
  match s.req, s.host with
  | none, r :: rest => { s with req := some r, host := rest }
  | _, _ => s

/-- HOST reads a port (10_state.md R29, R35): it gets `hostRead p s`, and no location of LCDB has a read with a side
effect (20_memory.md R55). Reading ⊥ is a fault of the host's model, not of LCDB (R29), which goes on (log 22). -/
def hostReads (_ : ReadPort) (s : State) : State := s

/-- Block reset (70_reset_and_hazards.md R250): every state element of LCDB takes its reset value. The
parameters and the outside agents are not LCDB's state (log 14). -/
def blockReset (s : State) : State :=
  { State.resetWith s.cfg with
    host := s.host, turns := s.turns, xportReady := s.xportReady, timerReady := s.timerReady }

/-- One turn of one agent. -/
def turn (t : Turn) (s : State) : Host.Outcome State Fault Refusal :=
  match t with
  | .seq => seqTurn s
  | .xport => .next (xportTurn s)
  | .timer => .next (timerTurn s)
  | .hostPresents => .next (hostPresents s)
  | .hostReads p => .next (hostReads p s)
  | .blockReset => .next (blockReset s)

/-- The agent that moves when no turn is listed (log 8): SEQ if it has a step, else XPORT or TIMER if it has
one and is ready, else HOST. -/
def defaultTurn (s : State) : Turn :=
  if seqEnabled s then .seq
  else if s.wait = .tx ∧ s.xportReady = true then .xport
  else if s.wait ≠ .none ∧ s.wait ≠ .tx ∧ s.timerReady = true then .timer
  else .hostPresents

/-- The next step of the machine: the listed turn, or the default one. -/
def nextStep (s : State) : Host.Outcome State Fault Refusal :=
  match s.turns with
  | t :: rest => turn t { s with turns := rest }
  | [] => turn (defaultTurn s) s

/-- Place a word of opcode_table.json so that the very next step runs it: a wire command's frame at the head of
SCRIPT, any other word as the pending request, with SEQ to move and able to (log 7). -/
def placeWord (s : State) (nbits w : Nat) : State :=
  let ready : State := { s with wait := .none, fault := {}, turns := .seq :: s.turns }
  let request : State := { ready with script := [], req := some (Request.ofNat (w % 2 ^ nbits)) }
  match decodeTableWord nbits w with
  | some i => if i.isWire then { ready with script := wireFrame s.cfg i ++ s.script } else request
  | none => request

end Sys2Proof.Machine
end

