-- ==== Sys2Proof/Machine/Step.lean ====
section
/-!
DEFINITION. The step of the machine, and where the next instruction of a word is placed. Both only call
Machine/Sequencer.lean.
-/

namespace Sys2Proof.Machine

/-- One step: one turn of one agent. -/
def step (s : State) : Host.Outcome State Fault Refusal := nextStep s

/-- `s` with the table word stored where SEQ takes its next instruction from. -/
def State.withFetchWord (s : State) (nbits w : Nat) : State := placeWord s nbits w

end Sys2Proof.Machine
end

