-- ==== Sys2Proof/Machine/Text.lean ====
section
/-!
DEFINITION. The textual request syntax (30_encoding.md R74) with the pseudo-requests (R75): a reader of one line,
given as a list of characters. White space and letter case are log 16.
-/

namespace Sys2Proof.Machine

/-- Drop spaces and tabs at the front. -/
def dropBlanks : List Char → List Char
  | ' ' :: cs => dropBlanks cs
  | '\t' :: cs => dropBlanks cs
  | cs => cs

/-- Drop spaces and tabs at both ends. -/
def trimBlanks (cs : List Char) : List Char := (dropBlanks (dropBlanks cs).reverse).reverse

/-- The value of a decimal digit. -/
def decDigit (c : Char) : Option Nat :=
  if 48 ≤ c.toNat ∧ c.toNat ≤ 57 then some (c.toNat - 48) else none

/-- The value of a hexadecimal digit of either case. -/
def hexDigit (c : Char) : Option Nat :=
  if 48 ≤ c.toNat ∧ c.toNat ≤ 57 then some (c.toNat - 48)
  else if 65 ≤ c.toNat ∧ c.toNat ≤ 70 then some (c.toNat - 55)
  else if 97 ≤ c.toNat ∧ c.toNat ≤ 102 then some (c.toNat - 87)
  else none

/-- The value of a digit string in a base, after the digits already read. -/
def digitsFrom (digit : Char → Option Nat) (base : Nat) : Nat → List Char → Option Nat
  | acc, [] => some acc
  | acc, c :: cs =>
    match digit c with
    | some d => digitsFrom digit base (acc * base + d) cs
    | none => none

/-- A non-empty digit string in a base. -/
def digits (digit : Char → Option Nat) (base : Nat) : List Char → Option Nat
  | [] => none
  | cs => digitsFrom digit base 0 cs

/-- A number: decimal, optionally negative, or hexadecimal with `0x` (30_encoding.md R74). -/
def parseNumber : List Char → Option Int
  | '0' :: 'x' :: cs => (digits hexDigit 16 cs).map Int.ofNat
  | '-' :: cs => (digits decDigit 10 cs).map fun n => - Int.ofNat n
  | cs => (digits decDigit 10 cs).map Int.ofNat

/-- A number that fits s32. -/
def parseS32 (cs : List Char) : Option Coord :=
  match parseNumber cs with
  | some v => if -2 ^ 31 ≤ v ∧ v ≤ 2 ^ 31 - 1 then some (BitVec.ofInt 32 v) else none
  | none => none

/-- A number that fits an unsigned width. -/
def parseUnsigned (bits : Nat) (cs : List Char) : Option (BitVec bits) :=
  match parseNumber cs with
  | some v => if 0 ≤ v ∧ v < 2 ^ bits then some (BitVec.ofInt bits v) else none
  | none => none

/-- Split at commas; an empty text has one empty part. -/
def splitCommas : List Char → List (List Char)
  | [] => [[]]
  | ',' :: cs => [] :: splitCommas cs
  | c :: cs =>
    match splitCommas cs with
    | p :: ps => (c :: p) :: ps
    | [] => [[c]]

/-- The mnemonic at the front of a line (up to a blank) and the rest. -/
def splitMnemonic : List Char → List Char × List Char
  | [] => ([], [])
  | c :: cs =>
    if c = ' ' ∨ c = '\t' then ([], c :: cs) else ((c :: (splitMnemonic cs).1), (splitMnemonic cs).2)

/-- The operands after a mnemonic: none on an empty rest, else the comma-separated parts. -/
def operandsOf (cs : List Char) : List (List Char) :=
  match trimBlanks cs with
  | [] => []
  | t => (splitCommas t).map trimBlanks

/-- Read one request line (30_encoding.md R74, R75); any other spelling is not a request. -/
def parseLine (line : List Char) : Option Source :=
  let (name, rest) := splitMnemonic (trimBlanks line)
  let ops := operandsOf rest
  if name = ['B', 'E', 'G', 'I', 'N'] then
    match ops with
    | [] => some (.core .begin)
    | _ => none
  else if name = ['D', 'I', 'S', 'P', 'L', 'A', 'Y'] then
    match ops with
    | [] => some (.core .display)
    | _ => none
  else if name = ['U', 'P', 'D', 'A', 'T', 'E'] then
    match ops with
    | [] => some .update
    | _ => none
  else if name = ['C', 'L', 'E', 'A', 'R'] then
    match ops with
    | [] => some .clearDefault
    | [p] => (parseUnsigned 16 p).map fun p => .core (.clear p)
    | _ => none
  else if name = ['F', 'I', 'L', 'L', '_', 'S', 'C', 'R', 'E', 'E', 'N'] then
    match ops with
    | [p] => (parseUnsigned 16 p).map .fillScreen
    | _ => none
  else if name = ['D', 'R', 'A', 'W', '_', 'P', 'O', 'I', 'N', 'T'] then
    match ops with
    | [x, y, p] =>
      match parseS32 x, parseS32 y, parseUnsigned 16 p with
      | some x, some y, some p => some (.core (.drawPoint x y p))
      | _, _, _ => none
    | _ => none
  else if name = ['D', 'R', 'A', 'W', '_', 'R', 'E', 'C', 'T', '_', 'O', 'U', 'T', 'L', 'I', 'N', 'E'] then
    match ops with
    | [x, y, w, h, p] =>
      match parseS32 x, parseS32 y, parseS32 w, parseS32 h, parseUnsigned 16 p with
      | some x, some y, some w, some h, some p => some (.core (.drawRectOutline x y w h p))
      | _, _, _, _, _ => none
    | _ => none
  else if name = ['F', 'I', 'L', 'L', '_', 'R', 'E', 'C', 'T'] then
    match ops with
    | [x, y, w, h, p] =>
      match parseS32 x, parseS32 y, parseS32 w, parseS32 h, parseUnsigned 16 p with
      | some x, some y, some w, some h, some p => some (.core (.fillRect x y w h p))
      | _, _, _, _, _ => none
    | _ => none
  else if name = ['E', 'N', 'C', 'O', 'D', 'E'] then
    match ops with
    | [v] => (parseUnsigned 32 v).map fun v => .core (.encode v)
    | _ => none
  else none

end Sys2Proof.Machine
end

