-- ==== Sys2Proof/Machine/Trace.lean ====
section
/-!
DEFINITION. Reading TRACE: the notation of 30_encoding.md R88, the traces of BEGIN and DISPLAY written in it
(43_sequences.md R192, R197), the reader of R78, and the counts of events.
-/

namespace Sys2Proof.Machine

/-- A line of the trace notation (30_encoding.md R88). -/
inductive TraceLine where
  | rst (l : Level)
  | delay (d : DelayName)
  | rate (r : Rate)
  | cmd (op : Byte) (payload : List Byte)
  | stream (bytes : List Byte)
  deriving DecidableEq, Repr

/-- The events a line stands for, its bytes sent at rate `r` (30_encoding.md R88). -/
def TraceLine.events (r : Rate) : TraceLine → List Event
  | .rst l => [.rst l]
  | .delay d => [.delay d]
  | .rate q => [.rate q]
  | .cmd op [] => [.cs .asserted, .dc .cmd, .byte op (.driven .cmd) r, .cs .released]
  | .cmd op (b :: bs) =>
    [.cs .asserted, .dc .cmd, .byte op (.driven .cmd) r, .dc .data] ++
      (b :: bs).map (fun v => Event.byte v (.driven .data) r) ++ [.cs .released]
  | .stream bytes =>
    [.cs .asserted, .dc .data] ++ bytes.map (fun v => Event.byte v (.driven .data) r) ++ [.cs .released]

/-- The events of a list of lines. -/
def traceOf (r : Rate) (ls : List TraceLine) : List Event := ls.flatMap (TraceLine.events r)

/-- The complete trace of one BEGIN (43_sequences.md R192). -/
def beginTrace (c : Config) : List TraceLine :=
  [.rst .low, .delay .rstLow, .rst .high, .delay .rstSettle,
   .cmd c.opc.swreset [], .delay .swreset,
   .cmd c.opc.slpout [], .delay .slpout,
   .cmd c.opc.madctl [c.madctlValue],
   .cmd c.opc.colmod [c.colmodValue],
   .cmd c.opc.invctr [0x00],
   .cmd c.opc.dispon [], .delay .dispon,
   .rate .fast]

/-- The stream bytes of a list of pixels in index order (20_memory.md R56, 42_wire_protocol.md R174). -/
def streamBytes (o : WireOrder) (ps : List Pixel) : List Byte :=
  ps.flatMap fun p =>
    match o with
    | .lowFirst => [lo8 p, hi8 p]
    | .highFirst => [hi8 p, lo8 p]

/-- The complete trace of one DISPLAY of the pixels `ps` (43_sequences.md R197). -/
def displayTrace (c : Config) (ps : List Pixel) : List TraceLine :=
  [.cmd c.opc.caset [hi8 c.colStart, lo8 c.colStart, hi8 c.colEnd, lo8 c.colEnd],
   .cmd c.opc.raset [hi8 c.rowStart, lo8 c.rowStart, hi8 c.rowEnd, lo8 c.rowEnd],
   .cmd c.opc.ramwr [],
   .stream (streamBytes c.wireOrder ps)]

/-! ### Reading a trace (30_encoding.md R78) -/

/-- One chip-select transaction as a reader of TRACE sees it: a command with its payload, or data bytes with no
opcode before them (the pixel stream, R174). -/
inductive Transaction where
  | command (op : Byte) (payload : List Byte)
  | data (bytes : List Byte)
  deriving DecidableEq, Repr

/-- Add a data byte at the end of the open transaction; one with no opcode opens a data transaction. -/
def Transaction.addByte (b : Byte) : Option Transaction → Transaction
  | none => .data [b]
  | some (.command op p) => .command op (p ++ [b])
  | some (.data bs) => .data (bs ++ [b])

/-- The transactions of a list of events (30_encoding.md R78): a byte with `dc = CMD` is an opcode, the bytes with
`dc = DATA` after it up to `Cs(RELEASED)` its payload. `cur` is the transaction still open. -/
def readTraceFrom : Option Transaction → List Event → List Transaction
  | none, [] => []
  | some t, [] => [t]
  | cur, .cs .released :: es =>
    match cur with
    | none => readTraceFrom none es
    | some t => t :: readTraceFrom none es
  | cur, .byte b (.driven .cmd) _ :: es =>
    match cur with
    | none => readTraceFrom (some (.command b [])) es
    | some t => t :: readTraceFrom (some (.command b [])) es
  | cur, .byte b (.driven .data) _ :: es => readTraceFrom (some (Transaction.addByte b cur)) es
  | cur, _ :: es => readTraceFrom cur es

/-- The transactions of a whole trace. -/
def readTrace (es : List Event) : List Transaction := readTraceFrom none es

/-- The emitted opcode sequence: the bytes sent with `dc = CMD` (30_encoding.md R78, 43_sequences.md R193). -/
def opcodesOf : List Event → List Byte
  | [] => []
  | .byte b (.driven .cmd) _ :: es => b :: opcodesOf es
  | _ :: es => opcodesOf es

/-- The rates the bytes of a trace carry (42_wire_protocol.md R176). -/
def byteRates : List Event → List Rate
  | [] => []
  | .byte _ _ r :: es => r :: byteRates es
  | _ :: es => byteRates es

end Sys2Proof.Machine
end

