-- ==== Sys2Proof/Safety.lean ====
section
/-!
DEFINITION. The terms claims are stated in: reset values, completion and good ends (43_sequences.md R199), the
fairness assumptions (42_wire_protocol.md R161, R162), who moves next, and the invariant of the machine
(10_state.md R38, R39).
-/

namespace Sys2Proof.Machine

/-- `n` steps, stopping at the first stop: the host's run of the machine (`runSteps_eq_run`). -/
def runSteps : Nat → State → Host.Outcome State Fault Refusal
  | 0, s => .next s
  | n + 1, s =>
    match step s with
    | .next t => runSteps n t
    | .fault f => .fault f
    | .refused r => .refused r

/-- The content of a cell, ⊥ as none (10_state.md R22). -/
def State.cell (s : State) (i : Nat) : Option Pixel := Fb.read i s.fb

/-- Every state element of LCDB at the value 10_state.md R40 gives it. -/
def ResetValues (s : State) : Prop :=
  s.phase = .uninit ∧ (∀ i, s.cell i = none) ∧ s.rstOut = .undriven ∧ s.csOut = .released ∧
  s.dcOut = .undriven ∧ s.rate = .slow ∧ (∀ c, s.fault.has c = false) ∧ s.rPix = none ∧
  s.trace = [] ∧ s.req = none ∧ s.script = [] ∧ s.wait = .none ∧ s.status = 0x0000

/-- Every cell of the frame buffer holds a value (10_state.md R39). -/
def FbFull (s : State) : Prop := ∀ i, i < s.cfg.cells → (s.cell i).isSome = true

/-- `XPORT_FAIR` (42_wire_protocol.md R161) once the listed turns are used up: a completion that is enabled is taken. -/
def XportFair (s : State) : Prop := s.xportReady = true

/-- `TIMER_FAIR` (42_wire_protocol.md R162) once the listed turns are used up: an enabled expiry is taken. -/
def TimerFair (s : State) : Prop := s.timerReady = true

/-- A host sequence has run to its end (43_sequences.md R199). -/
def RanToItsEnd (s : State) : Prop := s.host = [] ∧ s.req = none ∧ s.busy = false

/-- A good final state: ran to its end without a fault (43_sequences.md R199). -/
def GoodEnd (s : State) : Prop := RanToItsEnd s ∧ s.halted = false

/-- A request that an active block carries out without a fault: OP 2 to 7, and no rectangle's sum out of s32
(60_exceptions.md R221, R223, R224). -/
def LegalWhenActive (r : Request) : Prop :=
  2 ≤ r.op.toNat ∧ r.op.toNat ≤ 7 ∧
  (r.op = 0x05 ∨ r.op = 0x06 →
    -2 ^ 31 ≤ r.x.toInt + r.wd.toInt ∧ r.x.toInt + r.wd.toInt ≤ 2 ^ 31 - 1 ∧
    -2 ^ 31 ≤ r.y.toInt + r.ht.toInt ∧ r.y.toInt + r.ht.toInt ≤ 2 ^ 31 - 1)

/-- SEQ moves next and `ts` are the turns left after its step: it is SEQ's listed turn, or no turn is listed
(then SEQ moves whenever it has a step, log 8). -/
def SeqMoves (s : State) (ts : List Turn) : Prop := s.turns = .seq :: ts ∨ (s.turns = [] ∧ ts = [])

/-- Agent `u` takes the next step: its turn is listed first, or no turn is listed and it is the default one (log 8). -/
def Moves (u : Turn) (s : State) : Prop := s.turns.head? = some u ∨ (s.turns = [] ∧ defaultTurn s = u)

/-- The next turn is not block reset, the one event outside LCDB's own steps (70_reset_and_hazards.md R250). -/
def NoReset (s : State) : Prop := s.turns.head? ≠ some .blockReset

/-! ### The invariant -/

/-- PHASE and the panel-facing lines. -/
structure Lines where
  phase : Phase
  rstOut : RstOut
  csOut : CsLevel
  dcOut : DcOut
  rate : Rate
  deriving DecidableEq, Repr

/-- The lines of a state. -/
def State.lines (s : State) : Lines := ⟨s.phase, s.rstOut, s.csOut, s.dcOut, s.rate⟩

/-- What a micro-op does to the lines (42_wire_protocol.md R151 to R159). -/
def MicroOp.onLines (l : Lines) : MicroOp → Lines
  | .setRst v => { l with rstOut := .driven v }
  | .setCs a => { l with csOut := a }
  | .setDc m => { l with dcOut := .driven m }
  | .tx _ => l
  | .txPix _ => l
  | .wait _ => l
  | .setRate r => { l with rate := r }
  | .setPhase p => { l with phase := p }
  | .clearFb _ => l

/-- The lines after a list of micro-ops. -/
def linesAfter (ms : List MicroOp) (l : Lines) : Lines := ms.foldl MicroOp.onLines l

/-- The lines at block reset (10_state.md R40). -/
def resetLines : Lines := ⟨.uninit, .undriven, .released, .undriven, .slow⟩

/-- The lines of an idle block after BEGIN, the mode line where the last command or stream left it. -/
def activeLines (m : DcMode) : Lines := ⟨.active, .driven .high, .released, .driven m, .fast⟩

/-- What SEQ waits on after a micro-op (10_state.md R33). -/
def MicroOp.waits : MicroOp → Wait
  | .setRst _ => .none
  | .setCs _ => .none
  | .setDc _ => .none
  | .tx _ => .tx
  | .txPix _ => .tx
  | .wait d => .delay d
  | .setRate _ => .none
  | .setPhase _ => .none
  | .clearFb _ => .none

/-- WAIT is what the last micro-op performed put there, or that wait is over. -/
def WaitFits (done : List MicroOp) (w : Wait) : Prop :=
  w = .none ∨ ∃ m, done.getLast? = some m ∧ w = m.waits

/-- Before BEGIN is accepted (70_reset_and_hazards.md R251): idle, lines at reset, nothing drawn, nothing emitted. -/
def NotBegun (s : State) : Prop :=
  s.script = [] ∧ s.wait = .none ∧ s.lines = resetLines ∧ s.fb = [] ∧ s.traceRev = []

/-- The BEGIN script is running: `done` of it has been performed from the reset lines (43_sequences.md R190). -/
def Beginning (s : State) : Prop :=
  s.fault = {} ∧ s.script ≠ [] ∧ s.fb = [] ∧
  ∃ done, beginScript s.cfg = done ++ s.script ∧ s.lines = linesAfter done resetLines ∧ WaitFits done s.wait

/-- Idle after BEGIN: active, chip-select released, fast, every cell written (10_state.md R38, R39). -/
def Ready (s : State) : Prop :=
  s.script = [] ∧ s.wait = .none ∧ (∃ m, s.lines = activeLines m) ∧ FbFull s

/-- The DISPLAY script is running: `done` of it has been performed from an idle block (43_sequences.md R195). -/
def Displaying (s : State) : Prop :=
  s.fault = {} ∧ s.script ≠ [] ∧ FbFull s ∧
  ∃ done m, displayScript s.cfg = done ++ s.script ∧ s.lines = linesAfter done (activeLines m) ∧
    WaitFits done s.wait

/-- The invariant: legal parameters, the frame buffer in canonical form, at most one fault code
(60_exceptions.md R227), and one of the four situations the block can be in. -/
def Inv (s : State) : Prop :=
  s.cfg.wf = true ∧ Fb.wf s.cfg.cells s.fb = true ∧ s.fault.count ≤ 1 ∧
  (NotBegun s ∨ Beginning s ∨ Ready s ∨ Displaying s)

end Sys2Proof.Machine
end

