-- ==== Sys2Proof/Certificates/Slice0/Obligations.lean ====
section
/-!
DEFINITION. The statements for the provers. Each docstring names the rule or section of the spec it formalises.
-/

open Sys2Proof Sys2Proof.Machine

/-! ### Reset and the invariant -/

/-- 10_state.md R40: the reset table holds of the state after reset, and block reset installs it in any state. -/
def Obligations.BlockResetInstallsTheResetTable : Prop :=
  ResetValues State.reset ∧
  ∀ (s : State) (ts : List Turn), s.turns = .blockReset :: ts → ∃ t, step s = .next t ∧ ResetValues t

/-- The model's choice (log 14): block reset leaves the parameters, HOST's list of requests, the turns that follow and the
readiness of XPORT and TIMER, none of which is LCDB's state (10_state.md section 8). -/
def Obligations.BlockResetKeepsWhatIsNotLcdbs : Prop :=
  ∀ (s t : State) (ts : List Turn), s.turns = .blockReset :: ts → step s = .next t →
    t.cfg = s.cfg ∧ t.host = s.host ∧ t.turns = ts ∧ t.xportReady = s.xportReady ∧ t.timerReady = s.timerReady

/-- The invariant (10_state.md R38, R39; 60_exceptions.md R227) holds after block reset under any legal parameters,
and the default parameters are legal whatever the OPEN ones are (log 5, log 6). -/
def Obligations.InvariantHoldsAfterReset : Prop :=
  Inv State.reset ∧ ∀ c : Config, c.wf = true → Inv (State.resetWith c)

/-- Every step of every agent, block reset among them, keeps the invariant (10_state.md section 9). -/
def Obligations.EveryStepKeepsTheInvariant : Prop :=
  ∀ s t : State, Inv s → step s = .next t → Inv t

/-- 10_state.md R38: an idle block is in UNINIT or ACTIVE, and RESET and CONFIG occur only while the BEGIN script is running;
section 9: and in ACTIVE every cell of an idle block holds a value. -/
def Obligations.IdleMeansUninitOrActiveAndFull : Prop :=
  ∀ s : State, Inv s →
    (s.busy = false → (s.phase = .uninit ∨ s.phase = .active) ∧
      (s.phase = .active → ∀ i, i < s.cfg.cells → ∃ p, s.cell i = some p)) ∧
    (s.phase = .reset ∨ s.phase = .config → Beginning s)

/-- 10_state.md R39 and 42_wire_protocol.md R176: a byte leaves only with chip-select asserted and the mode line driven,
at SLOW before ACTIVE and at FAST in ACTIVE. -/
def Obligations.BytesLeaveOnlyInsideATransactionAtTheRightRate : Prop :=
  ∀ (s t : State) (b : Byte) (d : DcOut) (r : Rate), Inv s → step s = .next t →
    t.traceRev = .byte b d r :: s.traceRev →
    s.csOut = .asserted ∧ (d = .driven .cmd ∨ d = .driven .data) ∧
    ((s.phase = .config ∧ r = .slow) ∨ (s.phase = .active ∧ r = .fast))

/-- 42_wire_protocol.md R164: chip-select is released during every delay, and during the reset pulse. -/
def Obligations.ChipSelectIsReleasedDuringDelays : Prop :=
  ∀ s : State, Inv s → ((∃ d, s.wait = .delay d) ∨ s.phase = .reset) → s.csOut = .released

/-- 10_state.md R21: PHASE moves strictly forward, one value at a time, only by the BEGIN script. -/
def Obligations.PhaseMovesStrictlyForwardInTheBeginScript : Prop :=
  ∀ s t : State, Inv s → NoReset s → step s = .next t → t.phase ≠ s.phase →
    Beginning s ∧
    ((s.phase = .uninit ∧ t.phase = .reset) ∨ (s.phase = .reset ∧ t.phase = .config) ∨
     (s.phase = .config ∧ t.phase = .active))

/-- 10_state.md R27: RATE is written once, from SLOW to FAST, while the BEGIN script runs in CONFIG. -/
def Obligations.RateStepsUpOnceInConfig : Prop :=
  ∀ s t : State, Inv s → NoReset s → step s = .next t → t.rate ≠ s.rate →
    s.rate = .slow ∧ t.rate = .fast ∧ s.phase = .config ∧ Beginning s

/-- 60_exceptions.md section 1 (R220): under the invariant every step of every agent completes. In any other state the only
step that stops performs TX_PIX on a cell without a value or outside the buffer; that it stops there, and under which name, is
the model's choice (log 13, log 23). -/
def Obligations.NoStepStopsUnderTheInvariant : Prop :=
  (∀ s : State, Inv s → ∃ t, step s = .next t) ∧
  (∀ s : State, (∃ t, step s = .next t) ∨
    ∃ k rest, s.script = .txPix k :: rest ∧ s.wait = .none ∧ s.halted = false ∧
      ((step s = .fault (.fbNoValue (k >>> 1)) ∧ s.cell (k >>> 1) = none) ∨
       (step s = .fault (.fbNoCell (k >>> 1)) ∧ s.cfg.cells ≤ k >>> 1)))

/-- 10_state.md R37: the parameters never change. -/
def Obligations.NoStepChangesTheParameters : Prop :=
  ∀ s t : State, step s = .next t → t.cfg = s.cfg

/-! ### Encodings -/

/-- 30_encoding.md R71, R77: decoding an encoded instruction gives it back, every operand bit of it, from the bytes of a
record (laid out as log 3, the model's choice, says) or of a wire command. -/
def Obligations.DecodingAnEncodedInstructionGivesItBack : Prop :=
  ∀ (c : Config) (i : Instr), c.opc.all.Nodup →
    match encode c i with
    | .record r => decodeRecordBytes (bytesOfNat recordBytes r.toNat) = .ok i ∧ decodeRequest r = .ok i
    | .command bytes => decodeWire c bytes = .ok i

/-- 30_encoding.md section 1 (R70, R71, R72): a record decodes to the instruction of its own OP with that OP's own fields,
whatever the other fields hold; exactly the seven OP values are requests. -/
def Obligations.ExactlySevenRequestCodesAreLegal : Prop :=
  ∀ r : Request,
    (r.op = 0x01 → decodeRequest r = .ok .begin) ∧
    (r.op = 0x02 → decodeRequest r = .ok .display) ∧
    (r.op = 0x03 → decodeRequest r = .ok (.clear r.pix)) ∧
    (r.op = 0x04 → decodeRequest r = .ok (.drawPoint r.x r.y r.pix)) ∧
    (r.op = 0x05 → decodeRequest r = .ok (.drawRectOutline r.x r.y r.wd r.ht r.pix)) ∧
    (r.op = 0x06 → decodeRequest r = .ok (.fillRect r.x r.y r.wd r.ht r.pix)) ∧
    (r.op = 0x07 → decodeRequest r = .ok (.encode r.rgb)) ∧
    ((∃ i, decodeRequest r = .ok i) ↔ (1 ≤ r.op.toNat ∧ r.op.toNat ≤ 7)) ∧
    ((r.op.toNat = 0 ∨ 8 ≤ r.op.toNat) → decodeRequest r = .error (.illegalRequest r.op))

/-- 30_encoding.md section 2 and section 3 (R77, R79, R87): on the wire, an opcode that is none of the nine is refused by name;
each of the nine decodes with a payload of the length it fixes and refuses every other length by name; so does no byte at all.
What a decoder answers to bytes LCDB never emits is the model's choice (log 24). -/
def Obligations.TheWireDecoderRefusesOtherOpcodesAndLengths : Prop :=
  ∀ (c : Config) (op : Byte) (payload : List Byte), c.opc.all.Nodup →
    (op ∉ c.opc.all → decodeWire c (op :: payload) = .error (.unknownOpcode op)) ∧
    (∀ n, (op, n) ∈ [(c.opc.swreset, 0), (c.opc.slpout, 0), (c.opc.madctl, 1), (c.opc.colmod, 1), (c.opc.invctr, 1),
        (c.opc.dispon, 0), (c.opc.caset, 4), (c.opc.raset, 4), (c.opc.ramwr, 0)] →
      (payload.length = n → ∃ i, decodeWire c (op :: payload) = .ok i) ∧
      (payload.length ≠ n → decodeWire c (op :: payload) = .error (.payloadLength op payload.length))) ∧
    decodeWire c [] = .error .emptyCommand

/-- Words written out from 30_encoding.md R71, R77 and the model's choices of log 2, log 3 (a record's layout) and log 25
(a wire command's payload in a word) decode to what they stand for. -/
def Obligations.WrittenOutWordsDecode : Prop :=
  decodeTableWord 8 0x01 = some .begin ∧
  decodeTableWord 184 0x00FF0000_0000_00000000_00000000_00000000_00000000_07 = some (.encode 0x00FF0000) ∧
  decodeTableWord 184 0x00000000_1FF8_00000000_00000000_00000002_FFFFFFFF_04 =
    some (.drawPoint (-1) 2 0x1FF8) ∧
  decodeTableWord 40 0x7F00_0000_2A = some (.caset 0x0000 0x007F) ∧
  decodeTableWord 8 0x2C = some .ramwr ∧
  decodeTableWord 8 0x08 = none

/-- 30_encoding.md R75: the pseudo-requests; FILL_SCREEN fills the frame buffer as CLEAR does (41_framebuffer.md R127). -/
def Obligations.PseudoRequestsExpandAsStated : Prop :=
  ∀ c : Config,
    Source.update.expand c = .display ∧
    Source.clearDefault.expand c = .clear (encodeRgb 0x000000) ∧
    (encodeRgb 0x000000 : Pixel) = 0xFFFF ∧
    ∀ pix, (Source.fillScreen pix).expand c =
      .fillRect 0 0 (BitVec.ofNat 32 c.width) (BitVec.ofNat 32 c.height) pix

/-! ### The step and the instructions it runs -/

/-- 10_state.md R31, R34: an idle, unhalted SEQ accepts the pending request, consumes it, and runs the instruction it
decodes to. -/
def Obligations.StepRunsTheDecodedRequest : Prop :=
  ∀ (s : State) (ts : List Turn) (r : Request) (i : Instr), SeqMoves s ts → s.wait = .none → s.halted = false →
    s.script = [] → s.req = some r → decodeRequest r = .ok i →
    step s = exec i { s with req := none, turns := ts }

/-- 42_wire_protocol.md section 2: where a wire command's frame stands at the head of SCRIPT, the step is that wire
command's, run on what follows the frame (the model's reading, log 1). -/
def Obligations.StepRunsTheDecodedWireCommand : Prop :=
  ∀ (s : State) (ts : List Turn) (i : Instr) (rest : List MicroOp), s.cfg.opc.all.Nodup → SeqMoves s ts →
    s.wait = .none → s.halted = false → i.isWire = true → s.script = wireFrame s.cfg i ++ rest →
    step s = exec i { s with script := rest, turns := ts }

/-- 42_wire_protocol.md R150: SEQ's script step performs the head micro-op and drops it, whatever wire command begins
there; it is enabled iff WAIT = NONE and FAULT is empty, and while SCRIPT is not empty SEQ has no other step. -/
def Obligations.ScriptStepPerformsTheHeadMicroOp : Prop :=
  ∀ (s : State) (m : MicroOp) (rest : List MicroOp) (ts : List Turn), s.script = m :: rest →
    (s.wait = .none → s.halted = false → SeqMoves s ts →
      step s = microOp m { s with script := rest, turns := ts }) ∧
    ((s.wait ≠ .none ∨ s.halted = true) → s.turns = .seq :: ts → step s = .next { s with turns := ts })

/-- 10_state.md section 6 (R31, R34): a pending request leaves REQ only when SEQ, idle and not halted, accepts it; HOST presents
only while REQ = NONE, and then REQ takes all fields of HOST's next request at once and nothing else of LCDB changes, whether it
is busy or halted or not. HOST's list and the turns are the model's (log 7). -/
def Obligations.APendingRequestIsHeldUntilAccepted : Prop :=
  (∀ s t : State, NoReset s → step s = .next t →
    (∀ r, s.req = some r → t.req ≠ some r →
      s.script = [] ∧ s.wait = .none ∧ s.halted = false ∧ t.req = none) ∧
    (∀ r, s.req = none → t.req = some r → s.host = r :: t.host) ∧
    (s.req ≠ none → t.host = s.host)) ∧
  (∀ (s : State) (ts : List Turn), s.turns = .hostPresents :: ts →
    (∀ r rest, s.req = none → s.host = r :: rest →
      step s = .next { s with req := some r, host := rest, turns := ts }) ∧
    (s.req ≠ none ∨ s.host = [] → step s = .next { s with turns := ts }))

/-- 10_state.md section 5 (R29) and section 6 (R33): whatever the turn, R_PIX changes only when SEQ accepts an ENCODE, to its
colour's pixel, and only XPORT's step ends a TX wait and only TIMER's a delay, block reset aside. -/
def Obligations.OnlyEncodeWritesRPixAndOnlyTheirAgentsEndWaits : Prop :=
  ∀ s t : State, NoReset s → step s = .next t →
    (t.rPix ≠ s.rPix → s.script = [] ∧ s.wait = .none ∧ s.halted = false ∧
      ∃ r, s.req = some r ∧ r.op = 0x07 ∧ t.rPix = some (encodeRgb r.rgb)) ∧
    (s.wait = .tx → t.wait ≠ .tx → t.wait = .none ∧ Moves .xport s) ∧
    (∀ d, s.wait = .delay d → t.wait ≠ .delay d → t.wait = .none ∧ Moves .timer s) ∧
    (s.wait = .none → t.wait ≠ .none →
      s.halted = false ∧ ∃ m rest, s.script = m :: rest ∧ t.wait = m.waits)

/-- 43_sequences.md R199: a request that is neither BEGIN nor DISPLAY, an illegal one among them, is complete in its accepting
step: REQ is consumed, the block is idle, and no wire event is emitted. -/
def Obligations.OtherRequestsCompleteInTheirAcceptingStep : Prop :=
  ∀ (s : State) (ts : List Turn) (r : Request), SeqMoves s ts → s.wait = .none → s.halted = false →
    s.script = [] → s.req = some r → r.op ≠ 0x01 → r.op ≠ 0x02 →
    ∃ t, step s = .next t ∧ t.req = none ∧ t.busy = false ∧ t.trace = s.trace ∧ t.lines = s.lines

/-- 10_state.md R30: TRACE is append-only, at most one event a step; only block reset empties it. -/
def Obligations.TraceIsAppendOnly : Prop :=
  ∀ s t : State, step s = .next t →
    (s.turns.head? = some .blockReset ∧ t.trace = []) ∨ t.trace = s.trace ∨ ∃ e, t.trace = s.trace ++ [e]

/-! ### Micro-operations and the other agents -/

/-- 42_wire_protocol.md R151, R152, R159: each line micro-op sets its line and emits its event, and changes nothing else. -/
def Obligations.LineMicroOpsSetTheLineAndEmit : Prop :=
  ∀ s : State,
    (∀ l, ∃ t, microOp (.setRst l) s = .next t ∧ t.trace = s.trace ++ [.rst l] ∧
      t = { s with rstOut := .driven l, traceRev := t.traceRev }) ∧
    (∀ a, ∃ t, microOp (.setCs a) s = .next t ∧ t.trace = s.trace ++ [.cs a] ∧
      t = { s with csOut := a, traceRev := t.traceRev }) ∧
    (∀ m, ∃ t, microOp (.setDc m) s = .next t ∧ t.trace = s.trace ++ [.dc m] ∧
      t = { s with dcOut := .driven m, traceRev := t.traceRev })

/-- 42_wire_protocol.md section 1 (R153, R154, R155, R157): a byte carries the mode and rate in force and is awaited, a
delay is awaited, the rate change is emitted, the phase change is not. -/
def Obligations.ByteDelayRateAndPhaseMicroOps : Prop :=
  ∀ s : State,
    (∀ b, ∃ t, microOp (.tx b) s = .next t ∧ t.trace = s.trace ++ [.byte b s.dcOut s.rate] ∧
      t = { s with wait := .tx, traceRev := t.traceRev }) ∧
    (∀ d, ∃ t, microOp (.wait d) s = .next t ∧ t.trace = s.trace ++ [.delay d] ∧
      t = { s with wait := .delay d, traceRev := t.traceRev }) ∧
    (∀ r, ∃ t, microOp (.setRate r) s = .next t ∧ t.trace = s.trace ++ [.rate r] ∧
      t = { s with rate := r, traceRev := t.traceRev }) ∧
    (∀ p, microOp (.setPhase p) s = .next { s with phase := p })

/-- 42_wire_protocol.md R158: CLEAR_FB writes every cell, emits nothing, does not check PHASE, and stands only in the
BEGIN script, with 0xFFFF. -/
def Obligations.ClearFbMicroOpWritesEveryCell : Prop :=
  (∀ (s : State) (p : Pixel), Fb.wf s.cfg.cells s.fb = true →
    ∃ fb', microOp (.clearFb p) s = .next { s with fb := fb' } ∧ Fb.wf s.cfg.cells fb' = true ∧
      ∀ i, Fb.read i fb' = if i < s.cfg.cells then some p else none) ∧
  (∀ (c : Config) (p : Pixel), .clearFb p ∈ beginScript c → p = 0xFFFF) ∧
  (∀ (c : Config) (p : Pixel), .clearFb p ∉ displayScript c)

/-- 42_wire_protocol.md section 1 (R156) with 20_memory.md section 3 (R56): stream byte `k` is the low or the high byte of cell
`k >> 1` by PIXEL_WIRE_ORDER, sent as TX sends it. That a cell without a value stops the model, with fbNoValue, is the model's
choice (log 23): the spec asks for a fault and gives it no code of LCDB's. -/
def Obligations.StreamByteIsTheCellsByte : Prop :=
  ∀ (s : State) (k : Nat), k < 2 * s.cfg.cells →
    (∀ p, s.cell (k >>> 1) = some p →
      ∃ t b, microOp (.txPix k) s = .next t ∧ t.trace = s.trace ++ [.byte b s.dcOut s.rate] ∧
        t = { s with wait := .tx, traceRev := t.traceRev } ∧
        (s.cfg.wireOrder = .lowFirst → b = if k &&& 1 = 0 then lo8 p else hi8 p) ∧
        (s.cfg.wireOrder = .highFirst → b = if k &&& 1 = 0 then hi8 p else lo8 p)) ∧
    (s.cell (k >>> 1) = none → microOp (.txPix k) s = .fault (.fbNoValue (k >>> 1)))

/-- 42_wire_protocol.md R161: XPORT's step ends WAIT = TX and does nothing otherwise; if it is never taken, SEQ is held for
ever: a hang, not a fault. That it is never taken is the model's xportReady (log 7). -/
def Obligations.XportCompletesOrSeqHangs : Prop :=
  (∀ (s : State) (ts : List Turn), s.turns = .xport :: ts →
    step s = .next { s with turns := ts, wait := if s.wait = .tx then .none else s.wait }) ∧
  (∀ (s : State) (n : Nat), s.wait = .tx → s.turns = [] → s.xportReady = false →
    ∃ t, runSteps n s = .next t ∧ t.wait = .tx ∧ t.script = s.script ∧ t.trace = s.trace ∧ t.fault = s.fault ∧
      t.fb = s.fb ∧ t.lines = s.lines)

/-- 42_wire_protocol.md R162: TIMER's step ends a running delay and does nothing otherwise; if it is never taken, SEQ is
held for ever. That it is never taken is the model's timerReady (log 7). -/
def Obligations.TimerExpiresOrSeqHangs : Prop :=
  (∀ (s : State) (ts : List Turn), s.turns = .timer :: ts →
    step s = .next { s with turns := ts, wait := if s.wait = .tx then .tx else .none }) ∧
  (∀ (s : State) (n : Nat) (d : DelayName), s.wait = .delay d → s.turns = [] → s.timerReady = false →
    ∃ t, runSteps n s = .next t ∧ t.wait = .delay d ∧ t.script = s.script ∧ t.trace = s.trace ∧
      t.fault = s.fault ∧ t.fb = s.fb ∧ t.lines = s.lines)

/-- 10_state.md section 5 (R29), section 7 (R35) and 20_memory.md section 2 (R55): HOST reads STATUS and R_PIX in every state,
busy and halted ones among them, and no read changes anything. That LCDB answers no value where R_PIX holds none, and goes on, is
the model's reading (log 22). -/
def Obligations.HostReadsHaveNoSideEffect : Prop :=
  ∀ (s : State) (ts : List Turn),
    hostRead .status s = some s.status ∧
    (∀ v, s.rPix = some v → hostRead .rPix s = some v) ∧
    (s.rPix = none → hostRead .rPix s = none) ∧
    (∀ p, s.turns = .hostReads p :: ts → step s = .next { s with turns := ts })

/-- 10_state.md R35: the fields of STATUS, which HOST can read in every state, and its value after reset. -/
def Obligations.StatusFieldsReadTheState : Prop :=
  (∀ s : State,
    (s.status.getLsbD 0 = true ↔ (s.script ≠ [] ∨ s.wait ≠ .none)) ∧
    s.status.extractLsb' 1 2 = (match s.phase with | .uninit => 0 | .reset => 1 | .config => 2 | .active => 3) ∧
    (s.status.getLsbD 3 = true ↔ s.rate = .fast) ∧
    (s.status.getLsbD 4 = true ↔ ∃ c, s.fault.has c = true) ∧
    s.status.getLsbD 5 = s.fault.has .illegalRequest ∧
    s.status.getLsbD 6 = s.fault.has .useBeforeBegin ∧
    s.status.getLsbD 7 = s.fault.has .beginRepeated ∧
    s.status.getLsbD 8 = s.fault.has .coordOverflow ∧
    s.status.extractLsb' 9 7 = 0 ∧
    hostRead .status s = some s.status) ∧
  State.reset.status = 0x0000

/-! ### The codec -/

/-- 30_encoding.md R85 with 40_codec.md R100: ENCODE completes in every state, writes R_PIX only, and the pixel's fields are
the inverted channel bits, which also says that bits 31:24 and the low channel bits have no effect. -/
def Obligations.EncodeWritesTheInvertedSwappedPixel : Prop :=
  ∀ (s : State) (rgb : Rgb), ∃ p : Pixel,
    exec (.encode rgb) s = .next { s with rPix := some p } ∧
    p.extractLsb' 13 3 = ~~~(rgb.extractLsb' 10 3) ∧
    p.extractLsb' 8 5 = ~~~(rgb.extractLsb' 19 5) ∧
    p.extractLsb' 3 5 = ~~~(rgb.extractLsb' 3 5) ∧
    p.extractLsb' 0 3 = ~~~(rgb.extractLsb' 13 3)

/-- 40_codec.md R104: decoding an encoded colour gives it truncated to 5/6/5 bits, and encoding a decoded pixel gives it
back. -/
def Obligations.CodecRoundTrips : Prop :=
  (∀ rgb : Rgb, decodePix (encodeRgb rgb) = rgb &&& 0x00F8FCF8) ∧
  (∀ pix : Pixel, encodeRgb (decodePix pix) = pix)

/-- 40_codec.md R103 and R105: two colours encode alike iff their kept bits agree, every pixel is an encoding, and the swap
and the inversion commute. -/
def Obligations.CodecIsABijectionOnTruncatedColours : Prop :=
  (∀ a b : Rgb, encodeRgb a = encodeRgb b ↔ a &&& 0x00F8FCF8 = b &&& 0x00F8FCF8) ∧
  (∀ pix : Pixel, ∃ rgb, encodeRgb rgb = pix) ∧
  (∀ p : Pixel, ~~~(swapOctets p) = swapOctets (~~~p))

/-- 20_memory.md R57: under LOW_FIRST the wire carries the inverted packed value with its most significant octet first; and
its example. -/
def Obligations.LowFirstSendsTheHighOctetOfThePackFirst : Prop :=
  ∀ rgb : Rgb,
    pixelByte .lowFirst 0 (encodeRgb rgb) = ~~~(hi8 (packBgr565 rgb)) ∧
    pixelByte .lowFirst 1 (encodeRgb rgb) = ~~~(lo8 (packBgr565 rgb)) ∧
    encodeRgb 0xFF0000 = 0xE0FF ∧ streamBytes .lowFirst [encodeRgb 0xFF0000] = [0xFF, 0xE0]

/-! ### The frame-buffer requests -/

/-- 41_framebuffer.md section 2 (R123): CLEAR completes in every phase but UNINIT; every cell takes the pixel, nothing else
changes. -/
def Obligations.ClearSetsEveryCell : Prop :=
  ∀ (s : State) (pix : Pixel), s.phase ≠ .uninit → Fb.wf s.cfg.cells s.fb = true →
    ∃ fb', exec (.clear pix) s = .next { s with fb := fb' } ∧ Fb.wf s.cfg.cells fb' = true ∧
      (∀ i, i < s.cfg.cells → Fb.read i fb' = some pix) ∧
      (∀ i, s.cfg.cells ≤ i → Fb.read i fb' = s.cell i)

/-- 41_framebuffer.md section 3 (R122, R120): DRAW_POINT completes in every phase but UNINIT; it writes cell `Y*W + X` iff
`0 <= X < W` and `0 <= Y < H`, and otherwise nothing; every other cell and everything else is unchanged. -/
def Obligations.DrawPointWritesItsCellIffInBounds : Prop :=
  ∀ (s : State) (x y : Coord) (pix : Pixel), s.phase ≠ .uninit → Fb.wf s.cfg.cells s.fb = true →
    ∃ fb', exec (.drawPoint x y pix) s = .next { s with fb := fb' } ∧ Fb.wf s.cfg.cells fb' = true ∧
      (0 ≤ x.toInt → x.toInt < s.cfg.width → 0 ≤ y.toInt → y.toInt < s.cfg.height →
        ∀ i, Fb.read i fb' = if (i : Int) = y.toInt * s.cfg.width + x.toInt then some pix else s.cell i) ∧
      ((x.toInt < 0 ∨ s.cfg.width ≤ x.toInt ∨ y.toInt < 0 ∨ s.cfg.height ≤ y.toInt) → fb' = s.fb)

/-- 41_framebuffer.md section 4 (R124): DRAW_RECT_OUTLINE completes in every phase but UNINIT when both sums fit s32; it
writes exactly the in-bounds cells of the border, and changes nothing else. -/
def Obligations.DrawRectOutlineWritesTheInBoundsBorder : Prop :=
  ∀ (s : State) (x y w h : Coord) (pix : Pixel), s.phase ≠ .uninit → Fb.wf s.cfg.cells s.fb = true →
    -2 ^ 31 ≤ x.toInt + w.toInt → x.toInt + w.toInt ≤ 2 ^ 31 - 1 →
    -2 ^ 31 ≤ y.toInt + h.toInt → y.toInt + h.toInt ≤ 2 ^ 31 - 1 →
    ∃ fb', exec (.drawRectOutline x y w h pix) s = .next { s with fb := fb' } ∧
      Fb.wf s.cfg.cells fb' = true ∧
      (∀ cx cy : Nat, cx < s.cfg.width → cy < s.cfg.height →
        Fb.read (cy * s.cfg.width + cx) fb' =
          if x.toInt ≤ cx ∧ cx < x.toInt + w.toInt ∧ y.toInt ≤ cy ∧ cy < y.toInt + h.toInt ∧
            ((cx : Int) = x.toInt ∨ (cx : Int) = x.toInt + w.toInt - 1 ∨
             (cy : Int) = y.toInt ∨ (cy : Int) = y.toInt + h.toInt - 1)
          then some pix else s.cell (cy * s.cfg.width + cx)) ∧
      (∀ i, s.cfg.cells ≤ i → Fb.read i fb' = s.cell i)

/-- 41_framebuffer.md section 5 (R126): FILL_RECT completes in every phase but UNINIT when both sums fit s32; it writes
exactly the cells of the rectangle that are in the buffer, and changes nothing else. -/
def Obligations.FillRectWritesTheClippedRectangle : Prop :=
  ∀ (s : State) (x y w h : Coord) (pix : Pixel), s.phase ≠ .uninit → Fb.wf s.cfg.cells s.fb = true →
    -2 ^ 31 ≤ x.toInt + w.toInt → x.toInt + w.toInt ≤ 2 ^ 31 - 1 →
    -2 ^ 31 ≤ y.toInt + h.toInt → y.toInt + h.toInt ≤ 2 ^ 31 - 1 →
    ∃ fb', exec (.fillRect x y w h pix) s = .next { s with fb := fb' } ∧ Fb.wf s.cfg.cells fb' = true ∧
      (∀ cx cy : Nat, cx < s.cfg.width → cy < s.cfg.height →
        Fb.read (cy * s.cfg.width + cx) fb' =
          if x.toInt ≤ cx ∧ cx < x.toInt + w.toInt ∧ y.toInt ≤ cy ∧ cy < y.toInt + h.toInt
          then some pix else s.cell (cy * s.cfg.width + cx)) ∧
      (∀ i, s.cfg.cells ≤ i → Fb.read i fb' = s.cell i)

/-- 41_framebuffer.md section 6 (R128): rectangles wholly outside the buffer, and those with no area, change nothing at all. -/
def Obligations.RectanglesOutsideTheBufferChangeNothing : Prop :=
  ∀ (s : State) (x y w h : Coord) (pix : Pixel), s.phase ≠ .uninit → Fb.wf s.cfg.cells s.fb = true →
    -2 ^ 31 ≤ x.toInt + w.toInt → x.toInt + w.toInt ≤ 2 ^ 31 - 1 →
    -2 ^ 31 ≤ y.toInt + h.toInt → y.toInt + h.toInt ≤ 2 ^ 31 - 1 →
    (w.toInt ≤ 0 ∨ h.toInt ≤ 0 ∨ s.cfg.width ≤ x.toInt ∨ s.cfg.height ≤ y.toInt ∨
     x.toInt + w.toInt ≤ 0 ∨ y.toInt + h.toInt ≤ 0) →
    exec (.fillRect x y w h pix) s = .next s ∧ exec (.drawRectOutline x y w h pix) s = .next s

/-- 41_framebuffer.md section 5 (R127, row `X = 0, Y = 0, Wd = W, Ht = H`): filling the whole buffer is CLEAR. -/
def Obligations.FillingTheWholeBufferIsClear : Prop :=
  ∀ (s : State) (pix : Pixel), s.phase ≠ .uninit → s.cfg.wf = true →
    exec ((Source.fillScreen pix).expand s.cfg) s = exec (.clear pix) s

/-- 10_state.md section 3 (R22) and section 6 (R31): FB changes only in a step that accepts a drawing request, which takes an
idle and unhalted block, or performs CLEAR_FB. -/
def Obligations.FrameBufferChangesOnlyByDrawingOrClearing : Prop :=
  ∀ s t : State, NoReset s → step s = .next t → t.fb ≠ s.fb →
    s.wait = .none ∧ s.halted = false ∧
    ((∃ p rest, s.script = .clearFb p :: rest) ∨
    (s.script = [] ∧ ∃ r, s.req = some r ∧
      (r.op = 0x03 ∨ r.op = 0x04 ∨ r.op = 0x05 ∨ r.op = 0x06) ∧ s.phase ≠ .uninit))

/-! ### Faults -/

/-- 60_exceptions.md R222: before BEGIN, DISPLAY and every drawing request enter USE_BEFORE_BEGIN whatever their operands,
and ENCODE does not. -/
def Obligations.UseBeforeBeginIsEntered : Prop :=
  ∀ (s : State) (i : Instr), s.phase = .uninit →
    (i = .display ∨ (∃ p, i = .clear p) ∨ (∃ x y p, i = .drawPoint x y p) ∨
      (∃ x y w h p, i = .drawRectOutline x y w h p) ∨ (∃ x y w h p, i = .fillRect x y w h p) →
      exec i s = .next { s with fault := { s.fault with useBeforeBegin := true }, req := none }) ∧
    (∀ rgb, i = .encode rgb → ∃ t, exec i s = .next t ∧ t.fault = s.fault)

/-- 60_exceptions.md R223: BEGIN in any phase but UNINIT enters BEGIN_REPEATED. -/
def Obligations.SecondBeginEntersBeginRepeated : Prop :=
  ∀ s : State, s.phase ≠ .uninit →
    exec .begin s = .next { s with fault := { s.fault with beginRepeated := true }, req := none }

/-- 60_exceptions.md R221: accepting a request with any other OP enters ILLEGAL_REQUEST, in every phase. -/
def Obligations.IllegalRequestIsEntered : Prop :=
  ∀ (s : State) (ts : List Turn) (r : Request), SeqMoves s ts → s.wait = .none → s.halted = false →
    s.script = [] → s.req = some r → (r.op = 0x00 ∨ 0x08 ≤ r.op.toNat) →
    step s = .next { s with fault := { s.fault with illegalRequest := true }, req := none, turns := ts }

/-- 60_exceptions.md R224 with R225: after BEGIN, a rectangle whose sum leaves s32 enters COORD_OVERFLOW; sums are
mathematical integers. -/
def Obligations.CoordOverflowIsEntered : Prop :=
  ∀ (s : State) (x y w h : Coord) (p : Pixel), s.phase ≠ .uninit →
    (x.toInt + w.toInt < -2 ^ 31 ∨ 2 ^ 31 ≤ x.toInt + w.toInt ∨
     y.toInt + h.toInt < -2 ^ 31 ∨ 2 ^ 31 ≤ y.toInt + h.toInt) →
    exec (.drawRectOutline x y w h p) s =
      .next { s with fault := { s.fault with coordOverflow := true }, req := none } ∧
    exec (.fillRect x y w h p) s =
      .next { s with fault := { s.fault with coordOverflow := true }, req := none }

/-- 60_exceptions.md R228, R220: a step that raises a fault is the acceptance of a pending request by an idle block; it adds
one code, consumes the request, and changes nothing else. -/
def Obligations.FaultEntryIsPrecise : Prop :=
  ∀ s t : State, NoReset s → step s = .next t → t.fault ≠ s.fault →
    s.busy = false ∧ s.halted = false ∧ s.req ≠ none ∧
    ∃ c : FaultCode, t = { s with fault := s.fault.insert c, req := none, turns := s.turns.tail }

/-- 60_exceptions.md R229, 10_state.md R28: while halted, LCDB changes nothing: only an outstanding wait can end and HOST can
present one request, which stays pending; only block reset clears FAULT. -/
def Obligations.HaltedBlockIsQuiescent : Prop :=
  ∀ s t : State, s.halted = true → NoReset s → step s = .next t →
    t = { s with req := t.req, host := t.host, wait := t.wait, turns := t.turns } ∧
    (∀ r, s.req = some r → t.req = some r) ∧ (t.wait = s.wait ∨ t.wait = .none)

/-! ### The wire commands -/

/-- The model's reading of executing a wire command (log 1), the step that begins its frame, on the frames of
42_wire_protocol.md section 3 (R165, R166, R170, R173): the commands without payload complete in every state: chip-select is
asserted, and the mode, the opcode and the release follow next in SCRIPT. -/
def Obligations.CommandsWithoutPayloadBeginTheirFrame : Prop :=
  ∀ s : State,
    (∀ i op, (i, op) ∈ [(Instr.swreset, s.cfg.opc.swreset), (.slpout, s.cfg.opc.slpout),
        (.dispon, s.cfg.opc.dispon), (.ramwr, s.cfg.opc.ramwr)] →
      ∃ t, exec i s = .next t ∧ t.trace = s.trace ++ [.cs .asserted] ∧
        t = { s with csOut := .asserted, traceRev := t.traceRev,
                     script := [.setDc .cmd, .tx op, .setCs .released] ++ s.script })

/-- The model's reading of executing a wire command (log 1), the step that begins its frame, on the frames of
42_wire_protocol.md section 3 (R167, R168, R169): the one-byte commands complete in every state and queue their payload in data
mode. That any byte has a meaning, not only the one the parameters fix, is the model's choice (log 18). -/
def Obligations.OneByteCommandsBeginTheirFrame : Prop :=
  ∀ (s : State) (v : Byte),
    (∀ i op, (i, op) ∈ [(Instr.madctl v, s.cfg.opc.madctl), (.colmod v, s.cfg.opc.colmod),
        (.invctr v, s.cfg.opc.invctr)] →
      ∃ t, exec i s = .next t ∧ t.trace = s.trace ++ [.cs .asserted] ∧
        t = { s with csOut := .asserted, traceRev := t.traceRev,
                     script := [.setDc .cmd, .tx op, .setDc .data, .tx v, .setCs .released] ++ s.script })

/-- The model's reading of executing a wire command (log 1), the step that begins its frame, on the frames of
42_wire_protocol.md section 3 (R171, R172) with 30_encoding.md section 3 (R80): the window commands complete in every state and
queue the four bytes hi/lo of the start bound, then hi/lo of the end bound. That any bounds have a meaning, not only those the
parameters fix, is the model's choice (log 18). -/
def Obligations.WindowCommandsBeginTheirFrame : Prop :=
  ∀ (s : State) (a b : BitVec 16),
    (∀ i op, (i, op) ∈ [(Instr.caset a b, s.cfg.opc.caset), (.raset a b, s.cfg.opc.raset)] →
      ∃ t, exec i s = .next t ∧ t.trace = s.trace ++ [.cs .asserted] ∧
        t = { s with csOut := .asserted, traceRev := t.traceRev,
                     script := [.setDc .cmd, .tx op, .setDc .data,
                       .tx (a.extractLsb' 8 8), .tx (a.extractLsb' 0 8),
                       .tx (b.extractLsb' 8 8), .tx (b.extractLsb' 0 8), .setCs .released] ++ s.script })

/-- 42_wire_protocol.md R160 with 30_encoding.md R88: run to its end (XPORT_FAIR), a wire command puts exactly its framed bytes
on the wire, opcode in command mode and payload in data mode, and leaves chip-select released. The turns are the default ones
(log 7, log 8). -/
def Obligations.AWireCommandRunsToItsWholeFrame : Prop :=
  ∀ (s : State) (i : Instr) (op : Byte) (payload : List Byte) (rest : List MicroOp),
    i.isWire = true → encode s.cfg i = .command (op :: payload) → s.script = wireFrame s.cfg i ++ rest →
    s.wait = .none → s.halted = false → s.turns = [] → XportFair s →
    ∃ t, runSteps ((wireFrame s.cfg i).length + (op :: payload).length) s = .next t ∧
      t.trace = s.trace ++ (TraceLine.cmd op payload).events s.rate ∧
      t = { s with script := rest, csOut := .released, traceRev := t.traceRev,
                   dcOut := .driven (if payload = [] then .cmd else .data) }

/-! ### BEGIN and DISPLAY -/

/-- 43_sequences.md section 1 (R190): BEGIN completes in UNINIT by loading its 42 micro-ops, in this order, and changing
nothing else. -/
def Obligations.BeginLoadsItsScript : Prop :=
  ∀ s : State, s.phase = .uninit →
    ∃ ms : List MicroOp, exec .begin s = .next { s with script := ms } ∧ ms.length = 42 ∧
      ms =
        [.setPhase .reset, .setRst .low, .wait .rstLow, .setRst .high, .wait .rstSettle, .setPhase .config,
         .setCs .asserted, .setDc .cmd, .tx s.cfg.opc.swreset, .setCs .released, .wait .swreset,
         .setCs .asserted, .setDc .cmd, .tx s.cfg.opc.slpout, .setCs .released, .wait .slpout,
         .setCs .asserted, .setDc .cmd, .tx s.cfg.opc.madctl, .setDc .data, .tx s.cfg.madctlValue, .setCs .released,
         .setCs .asserted, .setDc .cmd, .tx s.cfg.opc.colmod, .setDc .data, .tx s.cfg.colmodValue, .setCs .released,
         .setCs .asserted, .setDc .cmd, .tx s.cfg.opc.invctr, .setDc .data, .tx 0x00, .setCs .released,
         .setCs .asserted, .setDc .cmd, .tx s.cfg.opc.dispon, .setCs .released, .wait .dispon,
         .setRate .fast, .setPhase .active, .clearFb 0xFFFF]

/-- 43_sequences.md section 2 (R195) with 30_encoding.md R80: DISPLAY completes in every phase but UNINIT by loading its
script, and changing nothing else; the window bounds are the full buffer's. -/
def Obligations.DisplayLoadsItsScript : Prop :=
  ∀ s : State, s.phase ≠ .uninit → s.cfg.wf = true →
    ∃ ce re : BitVec 16, ce.toNat = s.cfg.colOffset + s.cfg.width - 1 ∧ re.toNat = s.cfg.rowOffset + s.cfg.height - 1 ∧
      exec .display s = .next { s with script :=
        [.setCs .asserted, .setDc .cmd, .tx s.cfg.opc.caset, .setDc .data,
         .tx (BitVec.ofNat 8 (s.cfg.colOffset / 256)), .tx (BitVec.ofNat 8 (s.cfg.colOffset % 256)),
         .tx (hi8 ce), .tx (lo8 ce), .setCs .released,
         .setCs .asserted, .setDc .cmd, .tx s.cfg.opc.raset, .setDc .data,
         .tx (BitVec.ofNat 8 (s.cfg.rowOffset / 256)), .tx (BitVec.ofNat 8 (s.cfg.rowOffset % 256)),
         .tx (hi8 re), .tx (lo8 re), .setCs .released,
         .setCs .asserted, .setDc .cmd, .tx s.cfg.opc.ramwr, .setCs .released,
         .setCs .asserted, .setDc .data] ++
        (List.range (2 * (s.cfg.width * s.cfg.height))).map MicroOp.txPix ++ [.setCs .released] }

/-- 43_sequences.md R192 and section 1 (R190): from the accepting step, BEGIN emits exactly its complete trace at SLOW and ends
active, fast and idle with every cell 0xFFFF and STATUS 0x000E, in 57 steps (one acceptance, 42 micro-ops, nine
completions, five expiries), given XPORT_FAIR and TIMER_FAIR. The turns are the default ones
(log 7, log 8). -/
def Obligations.BeginEmitsItsWholeTraceAndEndsActive : Prop :=
  ∀ (s : State) (r : Request), s.phase = .uninit → s.rate = .slow → s.script = [] →
    s.wait = .none → s.halted = false → s.req = some r → r.op = 0x01 → s.turns = [] → XportFair s → TimerFair s →
    Fb.wf s.cfg.cells s.fb = true →
    ∃ t, runSteps 57 s = .next t ∧ t.trace = s.trace ++ traceOf .slow (beginTrace s.cfg) ∧
      (∀ i, i < s.cfg.cells → t.cell i = some 0xFFFF) ∧ t.status = 0x000E ∧
      t = { s with phase := .active, rate := .fast, rstOut := .driven .high, csOut := .released,
                   dcOut := .driven .cmd, req := none, fb := t.fb, traceRev := t.traceRev }

/-- 43_sequences.md R192, R193: the trace of BEGIN has 38 events, nine of them bytes, and its opcode bytes are the six
configuration commands in order. -/
def Obligations.BeginTraceCountsAndOpcodes : Prop :=
  ∀ c : Config,
    (traceOf .slow (beginTrace c)).length = 38 ∧
    byteRates (traceOf .slow (beginTrace c)) = List.replicate 9 .slow ∧
    (traceOf .slow (beginTrace c)).countP (fun e => match e with | .cs _ => true | _ => false) = 12 ∧
    (traceOf .slow (beginTrace c)).countP (fun e => match e with | .dc _ => true | _ => false) = 9 ∧
    (traceOf .slow (beginTrace c)).countP (fun e => match e with | .delay _ => true | _ => false) = 5 ∧
    opcodesOf (traceOf .slow (beginTrace c)) =
      [c.opc.swreset, c.opc.slpout, c.opc.madctl, c.opc.colmod, c.opc.invctr, c.opc.dispon]

/-- 43_sequences.md R197 and section 2 (R195), 42_wire_protocol.md R174: from the accepting step, DISPLAY sends the full window,
memory-write and every cell of FB in index order, and changes neither FB nor PHASE nor RATE, given XPORT_FAIR. The turns are the default ones
(log 7, log 8). -/
def Obligations.DisplaySendsTheWholeFrameBuffer : Prop :=
  ∀ (s : State) (r : Request) (ps : List Pixel), s.phase ≠ .uninit → s.script = [] → s.wait = .none →
    s.halted = false → s.req = some r → r.op = 0x02 → s.turns = [] → XportFair s →
    ps.length = s.cfg.cells → (∀ i, i < s.cfg.cells → s.cell i = ps[i]?) →
    ∃ t, runSteps (37 + 4 * s.cfg.cells) s = .next t ∧
      t.trace = s.trace ++ traceOf s.rate (displayTrace s.cfg ps) ∧
      t = { s with csOut := .released, dcOut := .driven .data, req := none, traceRev := t.traceRev }

/-- 43_sequences.md R198: after FILL_RECT of the whole buffer with an encoded colour, the next DISPLAY's stream is that pixel
in every position; with the defaults and 0xFF0000 each pixel goes out as 0xFF 0xE0. The turns are the default ones
(log 7, log 8). -/
def Obligations.FillThenDisplayStreamsTheEncodedColour : Prop :=
  (∀ (s : State) (r : Request) (rgb : Rgb) (s' : State), s.phase ≠ .uninit → s.cfg.wf = true →
    Fb.wf s.cfg.cells s.fb = true →
    exec (.fillRect 0 0 (BitVec.ofNat 32 s.cfg.width) (BitVec.ofNat 32 s.cfg.height) (encodeRgb rgb)) s = .next s' →
    s.script = [] → s.wait = .none → s.halted = false → s.turns = [] → XportFair s → r.op = 0x02 →
    ∃ t, runSteps (37 + 4 * s.cfg.cells) { s' with req := some r } = .next t ∧
      t.trace = s.trace ++
        traceOf s.rate (displayTrace s.cfg (List.replicate s.cfg.cells (encodeRgb rgb)))) ∧
  streamBytes .lowFirst [encodeRgb 0xFF0000] = [0xFF, 0xE0]

/-- 43_sequences.md section 3 (R199): with XPORT_FAIR and TIMER_FAIR, an idle, unhalted block whose HOST has only legal requests
left comes to a good end: in ACTIVE, any requests but BEGIN with no rectangle's sum out of s32; in UNINIT, any ENCODEs, then
BEGIN, then such requests; or in UNINIT ENCODEs only, which leave it there. Active, every cell holds a value at the end. The turns
are the default ones (log 7, log 8). -/
def Obligations.LegalHostSequencesComeToAGoodEnd : Prop :=
  ∀ s : State, Inv s → s.busy = false → s.halted = false → s.req = none → s.turns = [] → XportFair s → TimerFair s →
    (s.phase = .active → (∀ r, r ∈ s.host → LegalWhenActive r) →
      ∃ n t, runSteps n s = .next t ∧ GoodEnd t ∧ t.phase = .active ∧ FbFull t) ∧
    (∀ pre b post, s.phase = .uninit → s.host = pre ++ b :: post → (∀ r, r ∈ pre → r.op = 0x07) → b.op = 0x01 →
      (∀ r, r ∈ post → LegalWhenActive r) →
      ∃ n t, runSteps n s = .next t ∧ GoodEnd t ∧ t.phase = .active ∧ FbFull t) ∧
    (s.phase = .uninit → (∀ r, r ∈ s.host → r.op = 0x07) →
      ∃ n t, runSteps n s = .next t ∧ GoodEnd t ∧ t.phase = .uninit ∧ t.trace = s.trace)

/-- 30_encoding.md R78 with R88: a reader of TRACE gets back exactly the commands, with their payloads, and the streams that
were sent, in order, whatever resets, delays and rate changes stand between them. -/
def Obligations.ReadingATraceGivesBackItsTransactions : Prop :=
  ∀ (r : Rate) (ls : List TraceLine), TraceLine.stream [] ∉ ls →
    readTrace (traceOf r ls) = ls.filterMap fun l =>
      match l with
      | .cmd op payload => some (.command op payload)
      | .stream bytes => some (.data bytes)
      | .rst _ => none
      | .delay _ => none
      | .rate _ => none
end

