-- ==== Sys2Proof/Laws/State.lean ====
section
/-!
SUPPORT. One lemma per field per update of the shared operations, true by rfl.
-/

namespace Sys2Proof.Machine

variable (s : State)

/-! ### emit -/

@[simp] theorem emit_cfg (e : Event) : (emit e s).cfg = s.cfg := rfl
@[simp] theorem emit_phase (e : Event) : (emit e s).phase = s.phase := rfl
@[simp] theorem emit_fb (e : Event) : (emit e s).fb = s.fb := rfl
@[simp] theorem emit_rstOut (e : Event) : (emit e s).rstOut = s.rstOut := rfl
@[simp] theorem emit_csOut (e : Event) : (emit e s).csOut = s.csOut := rfl
@[simp] theorem emit_dcOut (e : Event) : (emit e s).dcOut = s.dcOut := rfl
@[simp] theorem emit_rate (e : Event) : (emit e s).rate = s.rate := rfl
@[simp] theorem emit_fault (e : Event) : (emit e s).fault = s.fault := rfl
@[simp] theorem emit_rPix (e : Event) : (emit e s).rPix = s.rPix := rfl
@[simp] theorem emit_traceRev (e : Event) : (emit e s).traceRev = e :: s.traceRev := rfl
@[simp] theorem emit_req (e : Event) : (emit e s).req = s.req := rfl
@[simp] theorem emit_script (e : Event) : (emit e s).script = s.script := rfl
@[simp] theorem emit_wait (e : Event) : (emit e s).wait = s.wait := rfl
@[simp] theorem emit_host (e : Event) : (emit e s).host = s.host := rfl
@[simp] theorem emit_turns (e : Event) : (emit e s).turns = s.turns := rfl
@[simp] theorem emit_xportReady (e : Event) : (emit e s).xportReady = s.xportReady := rfl
@[simp] theorem emit_timerReady (e : Event) : (emit e s).timerReady = s.timerReady := rfl

/-! ### raiseFault -/

@[simp] theorem raiseFault_cfg (c : FaultCode) : (raiseFault c s).cfg = s.cfg := rfl
@[simp] theorem raiseFault_phase (c : FaultCode) : (raiseFault c s).phase = s.phase := rfl
@[simp] theorem raiseFault_fb (c : FaultCode) : (raiseFault c s).fb = s.fb := rfl
@[simp] theorem raiseFault_rstOut (c : FaultCode) : (raiseFault c s).rstOut = s.rstOut := rfl
@[simp] theorem raiseFault_csOut (c : FaultCode) : (raiseFault c s).csOut = s.csOut := rfl
@[simp] theorem raiseFault_dcOut (c : FaultCode) : (raiseFault c s).dcOut = s.dcOut := rfl
@[simp] theorem raiseFault_rate (c : FaultCode) : (raiseFault c s).rate = s.rate := rfl
@[simp] theorem raiseFault_fault (c : FaultCode) : (raiseFault c s).fault = s.fault.insert c := rfl
@[simp] theorem raiseFault_rPix (c : FaultCode) : (raiseFault c s).rPix = s.rPix := rfl
@[simp] theorem raiseFault_traceRev (c : FaultCode) : (raiseFault c s).traceRev = s.traceRev := rfl
@[simp] theorem raiseFault_req (c : FaultCode) : (raiseFault c s).req = none := rfl
@[simp] theorem raiseFault_script (c : FaultCode) : (raiseFault c s).script = s.script := rfl
@[simp] theorem raiseFault_wait (c : FaultCode) : (raiseFault c s).wait = s.wait := rfl
@[simp] theorem raiseFault_host (c : FaultCode) : (raiseFault c s).host = s.host := rfl
@[simp] theorem raiseFault_turns (c : FaultCode) : (raiseFault c s).turns = s.turns := rfl
@[simp] theorem raiseFault_xportReady (c : FaultCode) : (raiseFault c s).xportReady = s.xportReady := rfl
@[simp] theorem raiseFault_timerReady (c : FaultCode) : (raiseFault c s).timerReady = s.timerReady := rfl

/-! ### loadScript -/

@[simp] theorem loadScript_cfg (ms : List MicroOp) : (loadScript ms s).cfg = s.cfg := rfl
@[simp] theorem loadScript_phase (ms : List MicroOp) : (loadScript ms s).phase = s.phase := rfl
@[simp] theorem loadScript_fb (ms : List MicroOp) : (loadScript ms s).fb = s.fb := rfl
@[simp] theorem loadScript_rstOut (ms : List MicroOp) : (loadScript ms s).rstOut = s.rstOut := rfl
@[simp] theorem loadScript_csOut (ms : List MicroOp) : (loadScript ms s).csOut = s.csOut := rfl
@[simp] theorem loadScript_dcOut (ms : List MicroOp) : (loadScript ms s).dcOut = s.dcOut := rfl
@[simp] theorem loadScript_rate (ms : List MicroOp) : (loadScript ms s).rate = s.rate := rfl
@[simp] theorem loadScript_fault (ms : List MicroOp) : (loadScript ms s).fault = s.fault := rfl
@[simp] theorem loadScript_rPix (ms : List MicroOp) : (loadScript ms s).rPix = s.rPix := rfl
@[simp] theorem loadScript_traceRev (ms : List MicroOp) : (loadScript ms s).traceRev = s.traceRev := rfl
@[simp] theorem loadScript_req (ms : List MicroOp) : (loadScript ms s).req = s.req := rfl
@[simp] theorem loadScript_script (ms : List MicroOp) : (loadScript ms s).script = ms := rfl
@[simp] theorem loadScript_wait (ms : List MicroOp) : (loadScript ms s).wait = s.wait := rfl
@[simp] theorem loadScript_host (ms : List MicroOp) : (loadScript ms s).host = s.host := rfl
@[simp] theorem loadScript_turns (ms : List MicroOp) : (loadScript ms s).turns = s.turns := rfl
@[simp] theorem loadScript_xportReady (ms : List MicroOp) : (loadScript ms s).xportReady = s.xportReady := rfl
@[simp] theorem loadScript_timerReady (ms : List MicroOp) : (loadScript ms s).timerReady = s.timerReady := rfl

/-! ### memWrite -/

@[simp] theorem memWrite_cfg (i : Nat) (p : Pixel) : (memWrite i p s).cfg = s.cfg := rfl
@[simp] theorem memWrite_phase (i : Nat) (p : Pixel) : (memWrite i p s).phase = s.phase := rfl
@[simp] theorem memWrite_fb (i : Nat) (p : Pixel) : (memWrite i p s).fb = Fb.write i p s.fb := rfl
@[simp] theorem memWrite_rstOut (i : Nat) (p : Pixel) : (memWrite i p s).rstOut = s.rstOut := rfl
@[simp] theorem memWrite_csOut (i : Nat) (p : Pixel) : (memWrite i p s).csOut = s.csOut := rfl
@[simp] theorem memWrite_dcOut (i : Nat) (p : Pixel) : (memWrite i p s).dcOut = s.dcOut := rfl
@[simp] theorem memWrite_rate (i : Nat) (p : Pixel) : (memWrite i p s).rate = s.rate := rfl
@[simp] theorem memWrite_fault (i : Nat) (p : Pixel) : (memWrite i p s).fault = s.fault := rfl
@[simp] theorem memWrite_rPix (i : Nat) (p : Pixel) : (memWrite i p s).rPix = s.rPix := rfl
@[simp] theorem memWrite_traceRev (i : Nat) (p : Pixel) : (memWrite i p s).traceRev = s.traceRev := rfl
@[simp] theorem memWrite_req (i : Nat) (p : Pixel) : (memWrite i p s).req = s.req := rfl
@[simp] theorem memWrite_script (i : Nat) (p : Pixel) : (memWrite i p s).script = s.script := rfl
@[simp] theorem memWrite_wait (i : Nat) (p : Pixel) : (memWrite i p s).wait = s.wait := rfl
@[simp] theorem memWrite_host (i : Nat) (p : Pixel) : (memWrite i p s).host = s.host := rfl
@[simp] theorem memWrite_turns (i : Nat) (p : Pixel) : (memWrite i p s).turns = s.turns := rfl
@[simp] theorem memWrite_xportReady (i : Nat) (p : Pixel) : (memWrite i p s).xportReady = s.xportReady := rfl
@[simp] theorem memWrite_timerReady (i : Nat) (p : Pixel) : (memWrite i p s).timerReady = s.timerReady := rfl

/-! ### paintCells -/

@[simp] theorem paintCells_cfg (cell : Int → Int → Bool) (p : Pixel) : (paintCells cell p s).cfg = s.cfg := rfl
@[simp] theorem paintCells_phase (cell : Int → Int → Bool) (p : Pixel) : (paintCells cell p s).phase = s.phase := rfl
@[simp] theorem paintCells_fb (cell : Int → Int → Bool) (p : Pixel) : (paintCells cell p s).fb = Fb.paint s.cfg.cells (fun i => cell (cellX s.cfg i) (cellY s.cfg i)) p s.fb := rfl
@[simp] theorem paintCells_rstOut (cell : Int → Int → Bool) (p : Pixel) : (paintCells cell p s).rstOut = s.rstOut := rfl
@[simp] theorem paintCells_csOut (cell : Int → Int → Bool) (p : Pixel) : (paintCells cell p s).csOut = s.csOut := rfl
@[simp] theorem paintCells_dcOut (cell : Int → Int → Bool) (p : Pixel) : (paintCells cell p s).dcOut = s.dcOut := rfl
@[simp] theorem paintCells_rate (cell : Int → Int → Bool) (p : Pixel) : (paintCells cell p s).rate = s.rate := rfl
@[simp] theorem paintCells_fault (cell : Int → Int → Bool) (p : Pixel) : (paintCells cell p s).fault = s.fault := rfl
@[simp] theorem paintCells_rPix (cell : Int → Int → Bool) (p : Pixel) : (paintCells cell p s).rPix = s.rPix := rfl
@[simp] theorem paintCells_traceRev (cell : Int → Int → Bool) (p : Pixel) : (paintCells cell p s).traceRev = s.traceRev := rfl
@[simp] theorem paintCells_req (cell : Int → Int → Bool) (p : Pixel) : (paintCells cell p s).req = s.req := rfl
@[simp] theorem paintCells_script (cell : Int → Int → Bool) (p : Pixel) : (paintCells cell p s).script = s.script := rfl
@[simp] theorem paintCells_wait (cell : Int → Int → Bool) (p : Pixel) : (paintCells cell p s).wait = s.wait := rfl
@[simp] theorem paintCells_host (cell : Int → Int → Bool) (p : Pixel) : (paintCells cell p s).host = s.host := rfl
@[simp] theorem paintCells_turns (cell : Int → Int → Bool) (p : Pixel) : (paintCells cell p s).turns = s.turns := rfl
@[simp] theorem paintCells_xportReady (cell : Int → Int → Bool) (p : Pixel) : (paintCells cell p s).xportReady = s.xportReady := rfl
@[simp] theorem paintCells_timerReady (cell : Int → Int → Bool) (p : Pixel) : (paintCells cell p s).timerReady = s.timerReady := rfl

/-! ### fillAll -/

@[simp] theorem fillAll_cfg (p : Pixel) : (fillAll p s).cfg = s.cfg := rfl
@[simp] theorem fillAll_phase (p : Pixel) : (fillAll p s).phase = s.phase := rfl
@[simp] theorem fillAll_fb (p : Pixel) : (fillAll p s).fb = Fb.paint s.cfg.cells (fun _ => true) p s.fb := rfl
@[simp] theorem fillAll_rstOut (p : Pixel) : (fillAll p s).rstOut = s.rstOut := rfl
@[simp] theorem fillAll_csOut (p : Pixel) : (fillAll p s).csOut = s.csOut := rfl
@[simp] theorem fillAll_dcOut (p : Pixel) : (fillAll p s).dcOut = s.dcOut := rfl
@[simp] theorem fillAll_rate (p : Pixel) : (fillAll p s).rate = s.rate := rfl
@[simp] theorem fillAll_fault (p : Pixel) : (fillAll p s).fault = s.fault := rfl
@[simp] theorem fillAll_rPix (p : Pixel) : (fillAll p s).rPix = s.rPix := rfl
@[simp] theorem fillAll_traceRev (p : Pixel) : (fillAll p s).traceRev = s.traceRev := rfl
@[simp] theorem fillAll_req (p : Pixel) : (fillAll p s).req = s.req := rfl
@[simp] theorem fillAll_script (p : Pixel) : (fillAll p s).script = s.script := rfl
@[simp] theorem fillAll_wait (p : Pixel) : (fillAll p s).wait = s.wait := rfl
@[simp] theorem fillAll_host (p : Pixel) : (fillAll p s).host = s.host := rfl
@[simp] theorem fillAll_turns (p : Pixel) : (fillAll p s).turns = s.turns := rfl
@[simp] theorem fillAll_xportReady (p : Pixel) : (fillAll p s).xportReady = s.xportReady := rfl
@[simp] theorem fillAll_timerReady (p : Pixel) : (fillAll p s).timerReady = s.timerReady := rfl

/-! ### setRst -/

@[simp] theorem setRst_cfg (l : Level) : (setRst l s).cfg = s.cfg := rfl
@[simp] theorem setRst_phase (l : Level) : (setRst l s).phase = s.phase := rfl
@[simp] theorem setRst_fb (l : Level) : (setRst l s).fb = s.fb := rfl
@[simp] theorem setRst_rstOut (l : Level) : (setRst l s).rstOut = .driven l := rfl
@[simp] theorem setRst_csOut (l : Level) : (setRst l s).csOut = s.csOut := rfl
@[simp] theorem setRst_dcOut (l : Level) : (setRst l s).dcOut = s.dcOut := rfl
@[simp] theorem setRst_rate (l : Level) : (setRst l s).rate = s.rate := rfl
@[simp] theorem setRst_fault (l : Level) : (setRst l s).fault = s.fault := rfl
@[simp] theorem setRst_rPix (l : Level) : (setRst l s).rPix = s.rPix := rfl
@[simp] theorem setRst_traceRev (l : Level) : (setRst l s).traceRev = .rst l :: s.traceRev := rfl
@[simp] theorem setRst_req (l : Level) : (setRst l s).req = s.req := rfl
@[simp] theorem setRst_script (l : Level) : (setRst l s).script = s.script := rfl
@[simp] theorem setRst_wait (l : Level) : (setRst l s).wait = s.wait := rfl
@[simp] theorem setRst_host (l : Level) : (setRst l s).host = s.host := rfl
@[simp] theorem setRst_turns (l : Level) : (setRst l s).turns = s.turns := rfl
@[simp] theorem setRst_xportReady (l : Level) : (setRst l s).xportReady = s.xportReady := rfl
@[simp] theorem setRst_timerReady (l : Level) : (setRst l s).timerReady = s.timerReady := rfl

/-! ### setCs -/

@[simp] theorem setCs_cfg (a : CsLevel) : (setCs a s).cfg = s.cfg := rfl
@[simp] theorem setCs_phase (a : CsLevel) : (setCs a s).phase = s.phase := rfl
@[simp] theorem setCs_fb (a : CsLevel) : (setCs a s).fb = s.fb := rfl
@[simp] theorem setCs_rstOut (a : CsLevel) : (setCs a s).rstOut = s.rstOut := rfl
@[simp] theorem setCs_csOut (a : CsLevel) : (setCs a s).csOut = a := rfl
@[simp] theorem setCs_dcOut (a : CsLevel) : (setCs a s).dcOut = s.dcOut := rfl
@[simp] theorem setCs_rate (a : CsLevel) : (setCs a s).rate = s.rate := rfl
@[simp] theorem setCs_fault (a : CsLevel) : (setCs a s).fault = s.fault := rfl
@[simp] theorem setCs_rPix (a : CsLevel) : (setCs a s).rPix = s.rPix := rfl
@[simp] theorem setCs_traceRev (a : CsLevel) : (setCs a s).traceRev = .cs a :: s.traceRev := rfl
@[simp] theorem setCs_req (a : CsLevel) : (setCs a s).req = s.req := rfl
@[simp] theorem setCs_script (a : CsLevel) : (setCs a s).script = s.script := rfl
@[simp] theorem setCs_wait (a : CsLevel) : (setCs a s).wait = s.wait := rfl
@[simp] theorem setCs_host (a : CsLevel) : (setCs a s).host = s.host := rfl
@[simp] theorem setCs_turns (a : CsLevel) : (setCs a s).turns = s.turns := rfl
@[simp] theorem setCs_xportReady (a : CsLevel) : (setCs a s).xportReady = s.xportReady := rfl
@[simp] theorem setCs_timerReady (a : CsLevel) : (setCs a s).timerReady = s.timerReady := rfl

/-! ### setDc -/

@[simp] theorem setDc_cfg (m : DcMode) : (setDc m s).cfg = s.cfg := rfl
@[simp] theorem setDc_phase (m : DcMode) : (setDc m s).phase = s.phase := rfl
@[simp] theorem setDc_fb (m : DcMode) : (setDc m s).fb = s.fb := rfl
@[simp] theorem setDc_rstOut (m : DcMode) : (setDc m s).rstOut = s.rstOut := rfl
@[simp] theorem setDc_csOut (m : DcMode) : (setDc m s).csOut = s.csOut := rfl
@[simp] theorem setDc_dcOut (m : DcMode) : (setDc m s).dcOut = .driven m := rfl
@[simp] theorem setDc_rate (m : DcMode) : (setDc m s).rate = s.rate := rfl
@[simp] theorem setDc_fault (m : DcMode) : (setDc m s).fault = s.fault := rfl
@[simp] theorem setDc_rPix (m : DcMode) : (setDc m s).rPix = s.rPix := rfl
@[simp] theorem setDc_traceRev (m : DcMode) : (setDc m s).traceRev = .dc m :: s.traceRev := rfl
@[simp] theorem setDc_req (m : DcMode) : (setDc m s).req = s.req := rfl
@[simp] theorem setDc_script (m : DcMode) : (setDc m s).script = s.script := rfl
@[simp] theorem setDc_wait (m : DcMode) : (setDc m s).wait = s.wait := rfl
@[simp] theorem setDc_host (m : DcMode) : (setDc m s).host = s.host := rfl
@[simp] theorem setDc_turns (m : DcMode) : (setDc m s).turns = s.turns := rfl
@[simp] theorem setDc_xportReady (m : DcMode) : (setDc m s).xportReady = s.xportReady := rfl
@[simp] theorem setDc_timerReady (m : DcMode) : (setDc m s).timerReady = s.timerReady := rfl

/-! ### tx -/

@[simp] theorem tx_cfg (b : Byte) : (tx b s).cfg = s.cfg := rfl
@[simp] theorem tx_phase (b : Byte) : (tx b s).phase = s.phase := rfl
@[simp] theorem tx_fb (b : Byte) : (tx b s).fb = s.fb := rfl
@[simp] theorem tx_rstOut (b : Byte) : (tx b s).rstOut = s.rstOut := rfl
@[simp] theorem tx_csOut (b : Byte) : (tx b s).csOut = s.csOut := rfl
@[simp] theorem tx_dcOut (b : Byte) : (tx b s).dcOut = s.dcOut := rfl
@[simp] theorem tx_rate (b : Byte) : (tx b s).rate = s.rate := rfl
@[simp] theorem tx_fault (b : Byte) : (tx b s).fault = s.fault := rfl
@[simp] theorem tx_rPix (b : Byte) : (tx b s).rPix = s.rPix := rfl
@[simp] theorem tx_traceRev (b : Byte) : (tx b s).traceRev = .byte b s.dcOut s.rate :: s.traceRev := rfl
@[simp] theorem tx_req (b : Byte) : (tx b s).req = s.req := rfl
@[simp] theorem tx_script (b : Byte) : (tx b s).script = s.script := rfl
@[simp] theorem tx_wait (b : Byte) : (tx b s).wait = .tx := rfl
@[simp] theorem tx_host (b : Byte) : (tx b s).host = s.host := rfl
@[simp] theorem tx_turns (b : Byte) : (tx b s).turns = s.turns := rfl
@[simp] theorem tx_xportReady (b : Byte) : (tx b s).xportReady = s.xportReady := rfl
@[simp] theorem tx_timerReady (b : Byte) : (tx b s).timerReady = s.timerReady := rfl

/-! ### startDelay -/

@[simp] theorem startDelay_cfg (d : DelayName) : (startDelay d s).cfg = s.cfg := rfl
@[simp] theorem startDelay_phase (d : DelayName) : (startDelay d s).phase = s.phase := rfl
@[simp] theorem startDelay_fb (d : DelayName) : (startDelay d s).fb = s.fb := rfl
@[simp] theorem startDelay_rstOut (d : DelayName) : (startDelay d s).rstOut = s.rstOut := rfl
@[simp] theorem startDelay_csOut (d : DelayName) : (startDelay d s).csOut = s.csOut := rfl
@[simp] theorem startDelay_dcOut (d : DelayName) : (startDelay d s).dcOut = s.dcOut := rfl
@[simp] theorem startDelay_rate (d : DelayName) : (startDelay d s).rate = s.rate := rfl
@[simp] theorem startDelay_fault (d : DelayName) : (startDelay d s).fault = s.fault := rfl
@[simp] theorem startDelay_rPix (d : DelayName) : (startDelay d s).rPix = s.rPix := rfl
@[simp] theorem startDelay_traceRev (d : DelayName) : (startDelay d s).traceRev = .delay d :: s.traceRev := rfl
@[simp] theorem startDelay_req (d : DelayName) : (startDelay d s).req = s.req := rfl
@[simp] theorem startDelay_script (d : DelayName) : (startDelay d s).script = s.script := rfl
@[simp] theorem startDelay_wait (d : DelayName) : (startDelay d s).wait = .delay d := rfl
@[simp] theorem startDelay_host (d : DelayName) : (startDelay d s).host = s.host := rfl
@[simp] theorem startDelay_turns (d : DelayName) : (startDelay d s).turns = s.turns := rfl
@[simp] theorem startDelay_xportReady (d : DelayName) : (startDelay d s).xportReady = s.xportReady := rfl
@[simp] theorem startDelay_timerReady (d : DelayName) : (startDelay d s).timerReady = s.timerReady := rfl

/-! ### setRate -/

@[simp] theorem setRate_cfg (r : Rate) : (setRate r s).cfg = s.cfg := rfl
@[simp] theorem setRate_phase (r : Rate) : (setRate r s).phase = s.phase := rfl
@[simp] theorem setRate_fb (r : Rate) : (setRate r s).fb = s.fb := rfl
@[simp] theorem setRate_rstOut (r : Rate) : (setRate r s).rstOut = s.rstOut := rfl
@[simp] theorem setRate_csOut (r : Rate) : (setRate r s).csOut = s.csOut := rfl
@[simp] theorem setRate_dcOut (r : Rate) : (setRate r s).dcOut = s.dcOut := rfl
@[simp] theorem setRate_rate (r : Rate) : (setRate r s).rate = r := rfl
@[simp] theorem setRate_fault (r : Rate) : (setRate r s).fault = s.fault := rfl
@[simp] theorem setRate_rPix (r : Rate) : (setRate r s).rPix = s.rPix := rfl
@[simp] theorem setRate_traceRev (r : Rate) : (setRate r s).traceRev = .rate r :: s.traceRev := rfl
@[simp] theorem setRate_req (r : Rate) : (setRate r s).req = s.req := rfl
@[simp] theorem setRate_script (r : Rate) : (setRate r s).script = s.script := rfl
@[simp] theorem setRate_wait (r : Rate) : (setRate r s).wait = s.wait := rfl
@[simp] theorem setRate_host (r : Rate) : (setRate r s).host = s.host := rfl
@[simp] theorem setRate_turns (r : Rate) : (setRate r s).turns = s.turns := rfl
@[simp] theorem setRate_xportReady (r : Rate) : (setRate r s).xportReady = s.xportReady := rfl
@[simp] theorem setRate_timerReady (r : Rate) : (setRate r s).timerReady = s.timerReady := rfl

/-! ### setPhase -/

@[simp] theorem setPhase_cfg (p : Phase) : (setPhase p s).cfg = s.cfg := rfl
@[simp] theorem setPhase_phase (p : Phase) : (setPhase p s).phase = p := rfl
@[simp] theorem setPhase_fb (p : Phase) : (setPhase p s).fb = s.fb := rfl
@[simp] theorem setPhase_rstOut (p : Phase) : (setPhase p s).rstOut = s.rstOut := rfl
@[simp] theorem setPhase_csOut (p : Phase) : (setPhase p s).csOut = s.csOut := rfl
@[simp] theorem setPhase_dcOut (p : Phase) : (setPhase p s).dcOut = s.dcOut := rfl
@[simp] theorem setPhase_rate (p : Phase) : (setPhase p s).rate = s.rate := rfl
@[simp] theorem setPhase_fault (p : Phase) : (setPhase p s).fault = s.fault := rfl
@[simp] theorem setPhase_rPix (p : Phase) : (setPhase p s).rPix = s.rPix := rfl
@[simp] theorem setPhase_traceRev (p : Phase) : (setPhase p s).traceRev = s.traceRev := rfl
@[simp] theorem setPhase_req (p : Phase) : (setPhase p s).req = s.req := rfl
@[simp] theorem setPhase_script (p : Phase) : (setPhase p s).script = s.script := rfl
@[simp] theorem setPhase_wait (p : Phase) : (setPhase p s).wait = s.wait := rfl
@[simp] theorem setPhase_host (p : Phase) : (setPhase p s).host = s.host := rfl
@[simp] theorem setPhase_turns (p : Phase) : (setPhase p s).turns = s.turns := rfl
@[simp] theorem setPhase_xportReady (p : Phase) : (setPhase p s).xportReady = s.xportReady := rfl
@[simp] theorem setPhase_timerReady (p : Phase) : (setPhase p s).timerReady = s.timerReady := rfl

/-! ### TRACE -/

@[simp] theorem emit_trace (e : Event) : (emit e s).trace = s.trace ++ [e] := by simp [State.trace]

end Sys2Proof.Machine
end

