-- ==== Sys2Proof/Laws/Memory.lean ====
section
/-!
SUPPORT. The laws of the frame buffer: reading after a write and after a painted region, and the canonical form,
which every memory operation keeps.
-/

namespace Sys2Proof.Machine

/-! ### Reading -/

@[simp] theorem Fb.read_nil (i : Nat) : Fb.read i [] = none := rfl

theorem Fb.read_cons (i j : Nat) (q : Pixel) (rest : Fb) :
    Fb.read i ((j, q) :: rest) = if j = i then some q else Fb.read i rest := rfl

/-- Read after a write to any cell: the written value there, the old content elsewhere. -/
theorem Fb.read_write (i k : Nat) (p : Pixel) (fb : Fb) :
    Fb.read k (Fb.write i p fb) = if k = i then some p else Fb.read k fb := by
  induction fb with
  | nil => simp [Fb.write, Fb.read_cons, eq_comm]
  | cons c rest ih =>
    obtain ⟨j, q⟩ := c
    simp only [Fb.write]
    split
    · simp only [Fb.read_cons, eq_comm]
    · split
      · subst_vars
        simp only [Fb.read_cons, eq_comm]
        split <;> rfl
      · simp only [Fb.read_cons, ih]
        split <;> split <;> simp_all

/-! ### The canonical form -/

theorem Fb.wfFrom_mono {n lo lo' : Nat} {fb : Fb} (h : Fb.wfFrom n lo fb = true) (hl : lo' ≤ lo) :
    Fb.wfFrom n lo' fb = true := by
  cases fb with
  | nil => rfl
  | cons c rest =>
    obtain ⟨j, q⟩ := c
    simp only [Fb.wfFrom, Bool.and_eq_true, decide_eq_true_eq] at h ⊢
    exact ⟨⟨by omega, h.1.2⟩, h.2⟩

/-- A well-formed list from `lo` up holds no index below `lo` and none from `n` up. -/
theorem Fb.read_eq_none {n lo i : Nat} {fb : Fb} (h : Fb.wfFrom n lo fb = true) (hi : i < lo ∨ n ≤ i) :
    Fb.read i fb = none := by
  induction fb generalizing lo with
  | nil => rfl
  | cons c rest ih =>
    obtain ⟨j, q⟩ := c
    simp only [Fb.wfFrom, Bool.and_eq_true, decide_eq_true_eq] at h
    rw [Fb.read_cons, if_neg (by omega)]
    exact ih h.2 (by omega)

/-- In a canonical frame buffer an index that is no cell reads as ⊥. -/
theorem Fb.read_outside {n i : Nat} {fb : Fb} (h : Fb.wf n fb = true) (hi : n ≤ i) : Fb.read i fb = none :=
  Fb.read_eq_none h (.inr hi)

theorem Fb.wfFrom_write {n lo i : Nat} {p : Pixel} {fb : Fb} (h : Fb.wfFrom n lo fb = true) (hlo : lo ≤ i)
    (hn : i < n) : Fb.wfFrom n lo (Fb.write i p fb) = true := by
  induction fb generalizing lo with
  | nil => simp [Fb.write, Fb.wfFrom, hlo, hn]
  | cons c rest ih =>
    obtain ⟨j, q⟩ := c
    simp only [Fb.wfFrom, Bool.and_eq_true, decide_eq_true_eq] at h
    simp only [Fb.write]
    split
    · simp only [Fb.wfFrom, Bool.and_eq_true, decide_eq_true_eq]
      exact ⟨⟨hlo, hn⟩, ⟨by omega, h.1.2⟩, h.2⟩
    · split
      · subst_vars
        simpa [Fb.wfFrom, hlo, hn] using h.2
      · simp only [Fb.wfFrom, Bool.and_eq_true, decide_eq_true_eq]
        exact ⟨h.1, ih h.2 (by omega)⟩

/-- MemWrite to a cell keeps the canonical form. -/
theorem Fb.wf_write {n i : Nat} {p : Pixel} {fb : Fb} (h : Fb.wf n fb = true) (hn : i < n) :
    Fb.wf n (Fb.write i p fb) = true :=
  Fb.wfFrom_write h (Nat.zero_le i) hn

/-! ### Painting a region -/

theorem Fb.wfFrom_paintFrom {sel : Nat → Bool} {p : Pixel} (n m i : Nat) {fb : Fb} (hm : i + m = n)
    (h : Fb.wfFrom n i fb = true) : Fb.wfFrom n i (Fb.paintFrom sel p m i fb) = true := by
  induction m generalizing i fb with
  | zero => simpa [Fb.paintFrom] using h
  | succ m ih =>
    cases fb with
    | nil =>
      have hr : Fb.wfFrom n (i + 1) (Fb.paintFrom sel p m (i + 1) []) = true := ih (i + 1) (by omega) rfl
      simp only [Fb.paintFrom]
      split
      · simp [Fb.wfFrom, hr]; omega
      · exact Fb.wfFrom_mono hr (Nat.le_succ i)
    | cons c rest =>
      obtain ⟨j, q⟩ := c
      have hc := h
      simp only [Fb.wfFrom, Bool.and_eq_true, decide_eq_true_eq] at hc
      have tail : j ≠ i → Fb.wfFrom n (i + 1) ((j, q) :: rest) = true := fun hj => by
        simp only [Fb.wfFrom, Bool.and_eq_true, decide_eq_true_eq]
        exact ⟨⟨by omega, hc.1.2⟩, hc.2⟩
      simp only [Fb.paintFrom]
      split
      · subst_vars
        simp only [Fb.wfFrom, Bool.and_eq_true, decide_eq_true_eq]
        exact ⟨⟨le_rfl, hc.1.2⟩, ih (j + 1) (by omega) hc.2⟩
      · rename_i hj
        split
        · simp only [Fb.wfFrom, Bool.and_eq_true, decide_eq_true_eq]
          exact ⟨⟨le_rfl, by omega⟩, ih (i + 1) (by omega) (tail hj)⟩
        · exact Fb.wfFrom_mono (ih (i + 1) (by omega) (tail hj)) (Nat.le_succ i)

/-- Painting keeps the canonical form. -/
theorem Fb.wf_paint {n : Nat} {sel : Nat → Bool} {p : Pixel} {fb : Fb} (h : Fb.wf n fb = true) :
    Fb.wf n (Fb.paint n sel p fb) = true :=
  Fb.wfFrom_paintFrom n n 0 (Nat.zero_add n) h

/-- Beyond the cell just passed, "from `i`" and "from `i + 1`" select the same cells. -/
theorem from_succ_iff {n i k : Nat} {b : Bool} (hk : i ≠ k) :
    (i + 1 ≤ k ∧ k < n ∧ b = true) ↔ (i ≤ k ∧ k < n ∧ b = true) := by
  constructor <;> rintro ⟨h1, h2, h3⟩ <;> exact ⟨by omega, h2, h3⟩

theorem Fb.read_paintFrom {sel : Nat → Bool} {p : Pixel} (n m i k : Nat) {fb : Fb} (hm : i + m = n)
    (h : Fb.wfFrom n i fb = true) :
    Fb.read k (Fb.paintFrom sel p m i fb) =
      if i ≤ k ∧ k < n ∧ sel k = true then some p else Fb.read k fb := by
  induction m generalizing i fb with
  | zero => rw [if_neg (by omega)]; rfl
  | succ m ih =>
    cases fb with
    | nil =>
      have hr := ih (i + 1) (fb := []) (by omega) rfl
      simp only [Fb.paintFrom]
      by_cases hk : i = k
      · subst hk
        by_cases hs : sel i = true
        · rw [if_pos hs, Fb.read_cons, if_pos rfl, if_pos ⟨le_rfl, by omega, hs⟩]
        · rw [if_neg hs, hr, if_neg (by omega), if_neg (by simp [hs])]
      · by_cases hs : sel i = true
        · rw [if_pos hs, Fb.read_cons, if_neg hk, hr, if_congr (from_succ_iff hk) rfl rfl]
        · rw [if_neg hs, hr, if_congr (from_succ_iff hk) rfl rfl]
    | cons c rest =>
      obtain ⟨j, q⟩ := c
      have hc := h
      simp only [Fb.wfFrom, Bool.and_eq_true, decide_eq_true_eq] at hc
      simp only [Fb.paintFrom]
      by_cases hj : j = i
      · subst hj
        rw [if_pos rfl, Fb.read_cons, Fb.read_cons, ih (j + 1) (by omega) hc.2]
        by_cases hk : j = k
        · subst hk
          by_cases hs : sel j = true
          · simp [hs, hc.1.2]
          · simp [hs]
        · rw [if_neg hk, if_neg hk, if_congr (from_succ_iff hk) rfl rfl]
      · have tail : Fb.wfFrom n (i + 1) ((j, q) :: rest) = true := by
          simp only [Fb.wfFrom, Bool.and_eq_true, decide_eq_true_eq]
          exact ⟨⟨by omega, hc.1.2⟩, hc.2⟩
        have hr := ih (i + 1) (by omega) tail
        rw [if_neg hj]
        by_cases hk : i = k
        · subst hk
          by_cases hs : sel i = true
          · rw [if_pos hs, Fb.read_cons, if_pos rfl, if_pos ⟨le_rfl, by omega, hs⟩]
          · rw [if_neg hs, hr, if_neg (by omega), if_neg (by simp [hs])]
        · by_cases hs : sel i = true
          · rw [if_pos hs, Fb.read_cons, if_neg hk, hr, if_congr (from_succ_iff hk) rfl rfl]
          · rw [if_neg hs, hr, if_congr (from_succ_iff hk) rfl rfl]

/-- Read after painting: the painted value in every selected cell, the old content everywhere else. -/
theorem Fb.read_paint {n : Nat} {sel : Nat → Bool} {p : Pixel} {fb : Fb} (h : Fb.wf n fb = true) (k : Nat) :
    Fb.read k (Fb.paint n sel p fb) = if k < n ∧ sel k = true then some p else Fb.read k fb := by
  rw [Fb.paint, Fb.read_paintFrom n n 0 k (Nat.zero_add n) h]
  simp

/-! ### Equality -/

/-- Two canonical frame buffers with the same cells are the same data. -/
theorem Fb.ext_of_read {n lo : Nat} {fb fb' : Fb} (h : Fb.wfFrom n lo fb = true) (h' : Fb.wfFrom n lo fb' = true)
    (heq : ∀ i, Fb.read i fb = Fb.read i fb') : fb = fb' := by
  induction fb generalizing lo fb' with
  | nil =>
    cases fb' with
    | nil => rfl
    | cons c rest =>
      obtain ⟨j, q⟩ := c
      simpa [Fb.read_cons] using heq j
  | cons c rest ih =>
    obtain ⟨j, q⟩ := c
    cases fb' with
    | nil => simpa [Fb.read_cons] using heq j
    | cons c' rest' =>
      obtain ⟨j', q'⟩ := c'
      simp only [Fb.wfFrom, Bool.and_eq_true, decide_eq_true_eq] at h h'
      have hj : j = j' := by
        by_contra hne
        rcases Nat.lt_or_gt_of_ne hne with hlt | hgt
        · have := heq j
          rw [Fb.read_cons, if_pos rfl, Fb.read_cons, if_neg (by omega),
            Fb.read_eq_none h'.2 (.inl (by omega))] at this
          cases this
        · have := heq j'
          rw [Fb.read_cons, if_neg (by omega), Fb.read_eq_none h.2 (.inl (by omega)), Fb.read_cons,
            if_pos rfl] at this
          cases this
      subst hj
      have hq : q = q' := by simpa [Fb.read_cons] using heq j
      subst hq
      congr 1
      refine ih h.2 h'.2 fun i => ?_
      by_cases hi : j = i
      · subst hi
        rw [Fb.read_eq_none h.2 (.inl (by omega)), Fb.read_eq_none h'.2 (.inl (by omega))]
      · simpa [Fb.read_cons, hi] using heq i

/-- One MemWrite per selected cell, in index order: the pseudocode's loop. -/
def Fb.writeEach (sel : Nat → Bool) (p : Pixel) : List Nat → Fb → Fb
  | [], fb => fb
  | i :: is, fb => Fb.writeEach sel p is (if sel i then Fb.write i p fb else fb)

theorem Fb.wf_writeEach {n : Nat} {sel : Nat → Bool} {p : Pixel} (is : List Nat) (his : ∀ i ∈ is, i < n)
    {fb : Fb} (h : Fb.wf n fb = true) : Fb.wf n (Fb.writeEach sel p is fb) = true := by
  induction is generalizing fb with
  | nil => exact h
  | cons i is ih =>
    refine ih (fun j hj => his j (.tail _ hj)) ?_
    split
    · exact Fb.wf_write h (his i (.head _))
    · exact h

theorem Fb.read_writeEach {sel : Nat → Bool} {p : Pixel} (is : List Nat) (k : Nat) (fb : Fb) :
    Fb.read k (Fb.writeEach sel p is fb) = if k ∈ is ∧ sel k = true then some p else Fb.read k fb := by
  induction is generalizing fb with
  | nil => simp [Fb.writeEach]
  | cons i is ih =>
    simp only [Fb.writeEach, ih]
    by_cases hk : k = i
    · subst hk
      by_cases hs : sel k = true
      · simp [hs, Fb.read_write]
      · simp [hs]
    · by_cases hs : sel i = true
      · simp [hs, Fb.read_write, hk]
      · simp [hs, hk]

/-- Painting is the pseudocode's loop of MemWrites over `[0, n)` (41_framebuffer.md R123, R124, R126). -/
theorem Fb.paint_eq_writeEach {n : Nat} {sel : Nat → Bool} {p : Pixel} {fb : Fb} (h : Fb.wf n fb = true) :
    Fb.paint n sel p fb = Fb.writeEach sel p (List.range n) fb := by
  refine Fb.ext_of_read (lo := 0) (Fb.wf_paint h) (Fb.wf_writeEach _ (fun i hi => List.mem_range.mp hi) h)
    fun k => ?_
  rw [Fb.read_paint h, Fb.read_writeEach]
  simp [List.mem_range]

/-! ### The state's memory operations -/

/-- MemRead answers the cell's value, or faults on ⊥ or outside the address space: nothing else. -/
theorem memRead_cases (s : State) (i : Nat) :
    (∃ p, i < s.cfg.cells ∧ Fb.read i s.fb = some p ∧ memRead s i = .ok p) ∨
    (i < s.cfg.cells ∧ Fb.read i s.fb = none ∧ memRead s i = .error (.fbNoValue i)) ∨
    (s.cfg.cells ≤ i ∧ memRead s i = .error (.fbNoCell i)) := by
  unfold memRead
  split
  · rename_i h
    cases hr : Fb.read i s.fb with
    | some p => exact .inl ⟨p, h, rfl, rfl⟩
    | none => exact .inr (.inl ⟨h, rfl, rfl⟩)
  · exact .inr (.inr ⟨by omega, rfl⟩)

theorem cellIndex_lt {c : Config} {x y : Int} (h : inB c x y = true) : cellIndex c x y < c.cells := by
  simp only [inB, Bool.and_eq_true, decide_eq_true_eq] at h
  obtain ⟨⟨⟨hx0, hxW⟩, hy0⟩, hyH⟩ := h
  lift x to Nat using hx0
  lift y to Nat using hy0
  have hx : x < c.width := by exact_mod_cast hxW
  have hy : y < c.height := by exact_mod_cast hyH
  have : (y : Int) * c.width + x = ((y * c.width + x : Nat) : Int) := by push_cast; ring
  rw [cellIndex, this, Int.toNat_natCast, Config.cells]
  nlinarith

/-- Plot keeps the canonical form. -/
theorem wf_plot {s : State} (x y : Int) (p : Pixel) (h : Fb.wf s.cfg.cells s.fb = true) :
    Fb.wf s.cfg.cells (plot x y p s).fb = true := by
  unfold plot
  split
  · rename_i hb
    exact Fb.wf_write h (cellIndex_lt hb)
  · exact h

/-- Writing a set of cells keeps the canonical form. -/
theorem wf_paintCells {s : State} (cell : Int → Int → Bool) (p : Pixel) (h : Fb.wf s.cfg.cells s.fb = true) :
    Fb.wf s.cfg.cells (paintCells cell p s).fb = true :=
  Fb.wf_paint h

/-- Filling keeps the canonical form. -/
theorem wf_fillAll {s : State} (p : Pixel) (h : Fb.wf s.cfg.cells s.fb = true) :
    Fb.wf s.cfg.cells (fillAll p s).fb = true :=
  Fb.wf_paint h

/-- The frame buffer at reset is canonical. -/
theorem wf_resetWith (c : Config) : Fb.wf c.cells (State.resetWith c).fb = true := rfl

end Sys2Proof.Machine
end

