-- ==== Sys2Proof/Laws/Ops.lean ====
section
/-!
SUPPORT. What each shared operation can do, said once: the micro-operations, the framing of wire commands and its
reader, the checks of the requests, and the fault set.
-/

namespace Sys2Proof.Machine

/-! ### The fault set -/

@[simp] theorem FaultSet.has_empty (c : FaultCode) : FaultSet.has c {} = false := by cases c <;> rfl

theorem FaultSet.has_insert (c d : FaultCode) (f : FaultSet) :
    (f.insert c).has d = (decide (c = d) || f.has d) := by
  cases c <;> cases d <;> simp [FaultSet.insert, FaultSet.has]

theorem FaultSet.isEmpty_iff (f : FaultSet) : f.isEmpty = true ↔ f = {} := by
  obtain ⟨a, b, c, d⟩ := f
  cases a <;> cases b <;> cases c <;> cases d <;> simp [FaultSet.isEmpty]

@[simp] theorem FaultSet.insert_not_empty (c : FaultCode) (f : FaultSet) : (f.insert c).isEmpty = false := by
  cases c <;> simp [FaultSet.insert, FaultSet.isEmpty]

@[simp] theorem FaultSet.count_insert_empty (c : FaultCode) : (FaultSet.insert c {}).count = 1 := by
  cases c <;> rfl

theorem halted_eq_false_iff (s : State) : s.halted = false ↔ s.fault = {} := by
  simp [State.halted, FaultSet.isEmpty_iff]

theorem busy_eq_false_iff (s : State) : s.busy = false ↔ s.script = [] ∧ s.wait = .none := by
  simp [State.busy]

/-! ### Micro-operations -/

@[simp] theorem microOp_setRst (l : Level) (s : State) : microOp (.setRst l) s = .next (setRst l s) := rfl
@[simp] theorem microOp_setCs (a : CsLevel) (s : State) : microOp (.setCs a) s = .next (setCs a s) := rfl
@[simp] theorem microOp_setDc (m : DcMode) (s : State) : microOp (.setDc m) s = .next (setDc m s) := rfl
@[simp] theorem microOp_tx (b : Byte) (s : State) : microOp (.tx b) s = .next (tx b s) := rfl
@[simp] theorem microOp_wait (d : DelayName) (s : State) : microOp (.wait d) s = .next (startDelay d s) := rfl
@[simp] theorem microOp_setRate (r : Rate) (s : State) : microOp (.setRate r) s = .next (setRate r s) := rfl
@[simp] theorem microOp_setPhase (p : Phase) (s : State) : microOp (.setPhase p) s = .next (setPhase p s) := rfl
@[simp] theorem microOp_clearFb (p : Pixel) (s : State) : microOp (.clearFb p) s = .next (fillAll p s) := rfl
@[simp] theorem microOp_txPix (k : Nat) (s : State) : microOp (.txPix k) s = txPix k s := rfl

/-- TX_PIX sends a byte of the cell, or faults on ⊥ or outside the address space: nothing else. -/
theorem txPix_cases (k : Nat) (s : State) :
    (∃ p, Fb.read (k / 2) s.fb = some p ∧ txPix k s = .next (tx (pixelByte s.cfg.wireOrder k p) s)) ∨
    txPix k s = .fault (.fbNoValue (k / 2)) ∨ txPix k s = .fault (.fbNoCell (k / 2)) := by
  unfold txPix
  rcases memRead_cases s (k / 2) with ⟨p, _, hr, h⟩ | ⟨_, _, h⟩ | ⟨_, h⟩ <;> rw [h]
  · exact .inl ⟨p, hr, rfl⟩
  · exact .inr (.inl rfl)
  · exact .inr (.inr rfl)

/-- A TX_PIX whose cell holds a value sends its byte. -/
theorem txPix_of_read {k : Nat} {s : State} {p : Pixel} (hk : k / 2 < s.cfg.cells)
    (h : Fb.read (k / 2) s.fb = some p) : txPix k s = .next (tx (pixelByte s.cfg.wireOrder k p) s) := by
  unfold txPix memRead
  rw [if_pos hk, h]

/-- Everything a micro-op that completes can do: the fields it may write are the lines, PHASE, RATE, FB, TRACE and WAIT. -/
theorem microOp_frame {m : MicroOp} {s t : State} (h : microOp m s = .next t) :
    t.cfg = s.cfg ∧ t.fault = s.fault ∧ t.rPix = s.rPix ∧ t.req = s.req ∧ t.script = s.script ∧
    t.host = s.host ∧ t.turns = s.turns ∧ t.xportReady = s.xportReady ∧ t.timerReady = s.timerReady := by
  cases m with
  | txPix k =>
    rcases txPix_cases k s with ⟨p, _, hp⟩ | hp | hp
    · rw [microOp_txPix, hp] at h; cases h; simp
    · rw [microOp_txPix, hp] at h; cases h
    · rw [microOp_txPix, hp] at h; cases h
  | _ => cases h; simp

/-- Only CLEAR_FB writes the frame buffer. -/
theorem microOp_fb {m : MicroOp} {s t : State} (h : microOp m s = .next t) :
    t.fb = s.fb ∨ ∃ p, m = .clearFb p ∧ t = fillAll p s := by
  cases m with
  | txPix k =>
    rcases txPix_cases k s with ⟨p, _, hp⟩ | hp | hp
    · rw [microOp_txPix, hp] at h; cases h; exact .inl rfl
    · rw [microOp_txPix, hp] at h; cases h
    · rw [microOp_txPix, hp] at h; cases h
  | clearFb p => cases h; exact .inr ⟨p, rfl, rfl⟩
  | _ => cases h; exact .inl rfl

/-- Only TX_PIX can stop. -/
theorem microOp_next_or_txPix (m : MicroOp) (s : State) :
    (∃ t, microOp m s = .next t) ∨ ∃ k, m = .txPix k := by
  cases m with
  | txPix k => exact .inr ⟨k, rfl⟩
  | _ => exact .inl ⟨_, rfl⟩

/-! ### Frames -/

theorem cmdFrame_cons (op : Byte) (payload : List Byte) :
    ∃ tail, cmdFrame op payload = .setCs .asserted :: tail := by
  cases payload <;> exact ⟨_, rfl⟩

/-- Beginning a non-empty list of micro-ops performs its first and queues the others ahead of the script. -/
theorem startFrame_cons (m : MicroOp) (ms : List MicroOp) (s : State) :
    startFrame (m :: ms) s = microOp m { s with script := ms ++ s.script } := rfl

/-- The meaning of a wire command is the step that begins its frame. -/
theorem startFrame_eq_microOp {ms script rest : List MicroOp} {m : MicroOp} (s : State)
    (h : ms ++ script = m :: rest) :
    startFrame ms { s with script := script } = microOp m { s with script := rest } := by
  simp [startFrame, h]

/-! ### The checks of the requests -/

/-- The PHASE check either enters USE_BEFORE_BEGIN or lets the request go on. -/
theorem afterBegin_cases (k : State → Host.Outcome State Fault Refusal) (s : State) :
    (s.phase = .uninit ∧ afterBegin k s = .next (raiseFault .useBeforeBegin s)) ∨
    (s.phase ≠ .uninit ∧ afterBegin k s = k s) := by
  unfold afterBegin
  split
  · exact .inl ⟨‹_›, rfl⟩
  · exact .inr ⟨‹_›, rfl⟩

theorem afterBegin_of_ne {k : State → Host.Outcome State Fault Refusal} {s : State} (h : s.phase ≠ .uninit) :
    afterBegin k s = k s := if_neg h

/-- The range check either enters COORD_OVERFLOW or lets the request go on. -/
theorem ifRectFits_cases (x y w h : Coord) (k : State → Host.Outcome State Fault Refusal) (s : State) :
    (rectFits x y w h = true ∧ ifRectFits x y w h k s = k s) ∨
    (rectFits x y w h = false ∧ ifRectFits x y w h k s = .next (raiseFault .coordOverflow s)) := by
  unfold ifRectFits
  split
  · exact .inl ⟨‹_›, rfl⟩
  · exact .inr ⟨Bool.eq_false_iff.mpr ‹_›, rfl⟩

theorem rectFits_iff (x y w h : Coord) :
    rectFits x y w h = true ↔
      (-2 ^ 31 ≤ x.toInt + w.toInt ∧ x.toInt + w.toInt ≤ 2 ^ 31 - 1) ∧
      (-2 ^ 31 ≤ y.toInt + h.toInt ∧ y.toInt + h.toInt ≤ 2 ^ 31 - 1) := by
  simp [rectFits, fitsS32, coord]

theorem inFill_iff (c : Config) (x y w h : Coord) (cx cy : Int) :
    inFill c x y w h cx cy = true ↔
      (x.toInt ≤ cx ∧ 0 ≤ cx ∧ cx < x.toInt + w.toInt ∧ cx < c.width) ∧
      (y.toInt ≤ cy ∧ 0 ≤ cy ∧ cy < y.toInt + h.toInt ∧ cy < c.height) := by
  simp only [inFill, coord, Bool.and_eq_true, decide_eq_true_eq]
  omega

theorem inOutline_iff (c : Config) (x y w h : Coord) (cx cy : Int) :
    inOutline c x y w h cx cy = true ↔
      (x.toInt ≤ cx ∧ cx < x.toInt + w.toInt ∧ y.toInt ≤ cy ∧ cy < y.toInt + h.toInt) ∧
      (cx = x.toInt ∨ cx = x.toInt + w.toInt - 1 ∨ cy = y.toInt ∨ cy = y.toInt + h.toInt - 1) ∧
      (0 ≤ cx ∧ cx < c.width ∧ 0 ≤ cy ∧ cy < c.height) := by
  simp only [inOutline, inB, coord, Bool.and_eq_true, Bool.or_eq_true, decide_eq_true_eq]
  tauto

/-! ### Cells and coordinates -/

theorem cellX_of_index {c : Config} {cx cy : Nat} (h : cx < c.width) : cellX c (cy * c.width + cx) = cx := by
  rw [cellX, Nat.mul_comm, Nat.mul_add_mod, Nat.mod_eq_of_lt h]

theorem cellY_of_index {c : Config} {cx cy : Nat} (h : cx < c.width) : cellY c (cy * c.width + cx) = cy := by
  rw [cellY, Nat.mul_comm, Nat.mul_add_div (by omega), Nat.div_eq_of_lt h, Nat.add_zero]

theorem index_lt_cells {c : Config} {cx cy : Nat} (hx : cx < c.width) (hy : cy < c.height) :
    cy * c.width + cx < c.cells := by
  unfold Config.cells
  nlinarith

end Sys2Proof.Machine
end

