-- ==== Sys2Proof/Laws/Bits.lean ====
section
/-!
SUPPORT. The bits of the byte-order helpers and of the codec, one lemma per definition.
-/

namespace Sys2Proof

theorem getLsbD_hi8 (v : BitVec 16) (j : Nat) : (hi8 v).getLsbD j = (decide (j < 8) && v.getLsbD (8 + j)) := by
  simp [hi8]

theorem getLsbD_lo8 (v : BitVec 16) (j : Nat) : (lo8 v).getLsbD j = (decide (j < 8) && v.getLsbD j) := by
  simp [lo8]

theorem getLsbD_ofHiLo (h l : Byte) (j : Nat) :
    (ofHiLo h l).getLsbD j = if j < 8 then l.getLsbD j else h.getLsbD (j - 8) :=
  BitVec.getLsbD_append

@[simp] theorem hi8_ofHiLo (h l : Byte) : hi8 (ofHiLo h l) = h := by
  apply BitVec.eq_of_getLsbD_eq
  intro j hj
  rw [getLsbD_hi8, getLsbD_ofHiLo]
  simp [hj]

@[simp] theorem lo8_ofHiLo (h l : Byte) : lo8 (ofHiLo h l) = l := by
  apply BitVec.eq_of_getLsbD_eq
  intro j hj
  rw [getLsbD_lo8, getLsbD_ofHiLo, if_pos hj]
  simp [hj]

/-- A 16-bit value is its high and its low byte. -/
@[simp] theorem ofHiLo_hi8_lo8 (v : BitVec 16) : ofHiLo (hi8 v) (lo8 v) = v := by
  apply BitVec.eq_of_getLsbD_eq
  intro j hj
  rw [getLsbD_ofHiLo, getLsbD_hi8, getLsbD_lo8]
  split
  · simp [*]
  · have h1 : 8 + (j - 8) = j := by omega
    have h2 : j - 8 < 8 := by omega
    simp [h1, h2]

/-! ### Records -/

/-- The length of a record's bytes. -/
@[simp] theorem length_bytesOfNat (n w : Nat) : (bytesOfNat n w).length = n := by
  induction n generalizing w with
  | zero => rfl
  | succ n ih => simp [bytesOfNat, ih]

/-- Little-endian bytes give back the low bits of the number they were cut from. -/
theorem natOfBytes_bytesOfNat (n w : Nat) : natOfBytes (bytesOfNat n w) = w % 256 ^ n := by
  induction n generalizing w with
  | zero => simp [bytesOfNat, natOfBytes, Nat.mod_one]
  | succ n ih =>
    rw [bytesOfNat, natOfBytes, ih, BitVec.toNat_ofNat, Nat.shiftRight_eq_div_pow,
      show (2 : Nat) ^ 8 = 256 from rfl, show 256 ^ (n + 1) = 256 * 256 ^ n from Nat.pow_succ', Nat.mod_mul]

namespace Machine

/-! ### The codec -/

/-- The bits of the pre-swap value: red 4:0, green 10:5, blue 15:11 (40_codec.md R100). -/
theorem getLsbD_packBgr565 (rgb : Rgb) (j : Nat) :
    (packBgr565 rgb).getLsbD j =
      if j < 5 then rgb.getLsbD (19 + j)
      else if j < 11 then rgb.getLsbD (10 + (j - 5))
      else decide (j < 16) && rgb.getLsbD (3 + (j - 11)) := by
  refine (show (packBgr565 rgb).getLsbD j = _ from BitVec.getLsbD_append).trans ?_
  rw [BitVec.getLsbD_append, BitVec.getLsbD_extractLsb', BitVec.getLsbD_extractLsb', BitVec.getLsbD_extractLsb']
  split
  · simp [*]
  · have e : j - 5 - 6 = j - 11 := by omega
    rw [e]
    split <;> split <;> first | omega | simp [*] | skip
    have : decide (j - 11 < 5) = decide (j < 16) := decide_eq_decide.mpr (by omega)
    rw [this]

/-- The octet swap exchanges bits 7:0 and 15:8. -/
theorem getLsbD_swapOctets (v : Pixel) (j : Nat) :
    (swapOctets v).getLsbD j = if j < 8 then v.getLsbD (8 + j) else decide (j < 16) && v.getLsbD (j - 8) := by
  refine (show (swapOctets v).getLsbD j = _ from BitVec.getLsbD_append).trans ?_
  rw [getLsbD_hi8, getLsbD_lo8]
  split
  · simp [*]
  · have : decide (j - 8 < 8) = decide (j < 16) := decide_eq_decide.mpr (by omega)
    rw [this]

/-- Swapping twice is nothing. -/
@[simp] theorem swapOctets_swapOctets (v : Pixel) : swapOctets (swapOctets v) = v := by
  apply BitVec.eq_of_getLsbD_eq
  intro j hj
  rw [getLsbD_swapOctets, getLsbD_swapOctets, getLsbD_swapOctets]
  by_cases h : j < 8
  · have h1 : ¬ 8 + j < 8 := by omega
    have h2 : 8 + j < 16 := by omega
    have h3 : 8 + j - 8 = j := by omega
    simp [h, h2, h3]
  · have h1 : j - 8 < 8 := by omega
    have h3 : 8 + (j - 8) = j := by omega
    simp [h, h1, h3, hj]

@[simp] theorem hi8_swapOctets (v : Pixel) : hi8 (swapOctets v) = lo8 v := hi8_ofHiLo (lo8 v) (hi8 v)

@[simp] theorem lo8_swapOctets (v : Pixel) : lo8 (swapOctets v) = hi8 v := lo8_ofHiLo (lo8 v) (hi8 v)

@[simp] theorem hi8_not (v : Pixel) : hi8 (~~~v) = ~~~(hi8 v) := by
  apply BitVec.eq_of_getLsbD_eq
  intro j hj
  have : 8 + j < 16 := by omega
  simp only [getLsbD_hi8, BitVec.getLsbD_not]
  simp [hj, this]

@[simp] theorem lo8_not (v : Pixel) : lo8 (~~~v) = ~~~(lo8 v) := by
  apply BitVec.eq_of_getLsbD_eq
  intro j hj
  have : j < 16 := by omega
  simp only [getLsbD_lo8, BitVec.getLsbD_not]
  simp [hj, this]

/-- The bits of `Decode` (40_codec.md R102) in the un-inverted, un-swapped value. -/
theorem decodePix_def (pix : Pixel) :
    decodePix pix = (0 : BitVec 8) ++ (swapOctets (~~~pix)).extractLsb' 0 5 ++ (0 : BitVec 3) ++
      (swapOctets (~~~pix)).extractLsb' 5 6 ++ (0 : BitVec 2) ++ (swapOctets (~~~pix)).extractLsb' 11 5 ++
      (0 : BitVec 3) := rfl

end Machine

end Sys2Proof
end

