-- ==== Sys2Proof/Laws/PerInstr.lean ====
section
/-!
SUPPORT. The family stated of every instruction: its encoding begins with the value the opcode table matches.
-/

namespace Sys2Proof.Laws.TableCode

/-- The "match" value of each row of spec/opcode_table.json. -/
def tableMatch : Instr → Byte
  | .begin => 0x01
  | .display => 0x02
  | .clear _ => 0x03
  | .drawPoint _ _ _ => 0x04
  | .drawRectOutline _ _ _ _ _ => 0x05
  | .fillRect _ _ _ _ _ => 0x06
  | .encode _ => 0x07
  | .swreset => 0x01
  | .slpout => 0x11
  | .madctl _ => 0x36
  | .colmod _ => 0x3A
  | .invctr _ => 0xB4
  | .dispon => 0x29
  | .caset _ _ => 0x2A
  | .raset _ _ => 0x2B
  | .ramwr => 0x2C

/-- The byte an encoding is recognised by: OP of a record, the opcode of a command. -/
def codeByte : Encoded → Option Byte
  | .record r => some r.op
  | .command bytes => bytes.head?

/-- Under the default parameters the encoding begins with the table's match value (30_encoding.md R71, R77). -/
def Statement (i : Instr) : Prop := codeByte (encode Config.default i) = some (tableMatch i)

theorem begin : Statement .begin := rfl
theorem display : Statement .display := rfl
theorem clear (pix : Pixel) : Statement (.clear pix) := rfl
theorem drawPoint (x y : Coord) (pix : Pixel) : Statement (.drawPoint x y pix) := rfl
theorem drawRectOutline (x y w h : Coord) (pix : Pixel) : Statement (.drawRectOutline x y w h pix) := rfl
theorem fillRect (x y w h : Coord) (pix : Pixel) : Statement (.fillRect x y w h pix) := rfl
theorem encode (rgb : Rgb) : Statement (.encode rgb) := rfl
theorem swreset : Statement .swreset := rfl
theorem slpout : Statement .slpout := rfl
theorem madctl (value : Byte) : Statement (.madctl value) := rfl
theorem colmod (value : Byte) : Statement (.colmod value) := rfl
theorem invctr (value : Byte) : Statement (.invctr value) := rfl
theorem dispon : Statement .dispon := rfl
theorem caset (start stop : BitVec 16) : Statement (.caset start stop) := rfl
theorem raset (start stop : BitVec 16) : Statement (.raset start stop) := rfl
theorem ramwr : Statement .ramwr := rfl

end Sys2Proof.Laws.TableCode
end

