-- ==== Sys2Proof/Laws/Sequencer.lean ====
section
/-!
SUPPORT. What a step can do, said once: which agent moves, SEQ's two steps, and the frames SEQ's fetch recognises.
-/

namespace Sys2Proof.Machine

/-! ### The reader of command frames -/

/-- What `takeTx` takes off are exactly TX micro-ops. -/
theorem takeTx_spec (ms : List MicroOp) : ms = (takeTx ms).1.map MicroOp.tx ++ (takeTx ms).2 := by
  induction ms with
  | nil => rfl
  | cons m ms ih =>
    cases m <;> simp [takeTx]
    exact ih

/-- `takeTx` takes every TX micro-op before one that is none. -/
theorem takeTx_append (bs : List Byte) (rest : List MicroOp) :
    takeTx (bs.map MicroOp.tx ++ .setCs .released :: rest) = (bs, .setCs .released :: rest) := by
  induction bs with
  | nil => rfl
  | cons b bs ih => simp [takeTx, ih]

/-- What `takeFrame` recognises is a whole command frame. -/
theorem takeFrame_spec {ms rest : List MicroOp} {bytes : List Byte} (h : takeFrame ms = some (bytes, rest)) :
    ∃ op payload, bytes = op :: payload ∧ ms = cmdFrame op payload ++ rest := by
  unfold takeFrame at h
  split at h
  · cases h; exact ⟨_, [], rfl, rfl⟩
  · rename_i op tail
    split at h
    · rename_i b bs rest' heq
      cases h
      refine ⟨op, b :: bs, rfl, ?_⟩
      have := takeTx_spec tail
      rw [heq] at this
      rw [this]
      simp [cmdFrame]
    · cases h
  · cases h

/-- A whole command frame is recognised. -/
theorem takeFrame_cmdFrame (op : Byte) (payload : List Byte) (rest : List MicroOp) :
    takeFrame (cmdFrame op payload ++ rest) = some (op :: payload, rest) := by
  cases payload with
  | nil => rfl
  | cons b bs =>
    have h := takeTx_append (b :: bs) rest
    simp only [List.map_cons, List.cons_append] at h
    simp [cmdFrame, takeFrame, h]

/-- The meaning of every wire command is the step that begins its own frame. -/
theorem exec_wire {i : Instr} (h : i.isWire = true) (s : State) :
    exec i s = startFrame (wireFrame s.cfg i) s := by
  cases i <;> first | rfl | cases h

theorem wireFrame_of_encode {c : Config} {i : Instr} {op : Byte} {payload : List Byte}
    (h : encode c i = .command (op :: payload)) : wireFrame c i = cmdFrame op payload := by
  simp [wireFrame, wireBytes, h]

theorem encode_of_isWire {c : Config} {i : Instr} (h : i.isWire = true) :
    ∃ op payload, encode c i = .command (op :: payload) := by
  cases i <;> first | exact ⟨_, _, rfl⟩ | cases h

/-! ### Which agent moves -/

/-- A step is one turn: the listed one, or the default one when none is listed. -/
theorem step_cases (s : State) :
    ∃ u ts, step s = turn u { s with turns := ts } ∧
      (s.turns = u :: ts ∨ (s.turns = [] ∧ ts = [] ∧ u = defaultTurn s)) := by
  cases h : s.turns with
  | nil =>
    refine ⟨defaultTurn s, [], ?_, .inr ⟨rfl, rfl, rfl⟩⟩
    have : { s with turns := [] } = s := by rw [← h]
    rw [this]
    simp [step, nextStep, h]
  | cons u ts => exact ⟨u, ts, by simp [step, nextStep, h], .inl rfl⟩

/-- No default turn is block reset or a read. -/
theorem defaultTurn_cases (s : State) :
    (defaultTurn s = .seq ∧ seqEnabled s = true) ∨ (defaultTurn s = .xport ∧ s.wait = .tx) ∨
    (defaultTurn s = .timer ∧ ∃ d, s.wait = .delay d) ∨ defaultTurn s = .hostPresents := by
  unfold defaultTurn
  split
  · exact .inl ⟨rfl, ‹_›⟩
  · split
    · rename_i h; exact .inr (.inl ⟨rfl, h.1⟩)
    · split
      · rename_i h
        refine .inr (.inr (.inl ⟨rfl, ?_⟩))
        cases hw : s.wait with
        | none => exact absurd hw h.1
        | tx => exact absurd hw h.2.1
        | delay d => exact ⟨d, rfl⟩
      · exact .inr (.inr (.inr rfl))

/-- SEQ's turn: held, a script step, or the acceptance of a request. -/
theorem seqTurn_cases (s : State) :
    seqTurn s = .next s ∨
    (s.wait = .none ∧ s.halted = false ∧ s.script ≠ [] ∧ seqTurn s = scriptStep s) ∨
    (∃ r, s.wait = .none ∧ s.halted = false ∧ s.script = [] ∧ s.req = some r ∧ seqTurn s = accept r s) := by
  unfold seqTurn
  split
  · rename_i hc
    split
    · rename_i h; exact .inr (.inl ⟨hc.1, hc.2, by simp [h], rfl⟩)
    · rename_i r hs hr; exact .inr (.inr ⟨r, hc.1, hc.2, hs, hr, rfl⟩)
    · exact .inl rfl
  · exact .inl rfl

theorem seqTurn_of_script {s : State} {m : MicroOp} {rest : List MicroOp} (hw : s.wait = .none)
    (hh : s.halted = false) (h : s.script = m :: rest) : seqTurn s = scriptStep s := by
  rw [seqTurn, if_pos ⟨hw, hh⟩, h]

theorem seqTurn_of_req {s : State} {r : Request} (hw : s.wait = .none) (hh : s.halted = false)
    (hs : s.script = []) (hr : s.req = some r) : seqTurn s = accept r s := by
  rw [seqTurn, if_pos ⟨hw, hh⟩, hs, hr]

theorem seqTurn_held {s : State} (h : s.wait ≠ .none ∨ s.halted = true) : seqTurn s = .next s := by
  rw [seqTurn, if_neg]
  rintro ⟨hw, hh⟩
  rcases h with h | h
  · exact h hw
  · rw [hh] at h; cases h

theorem seqEnabled_of_script {s : State} {m : MicroOp} {rest : List MicroOp} (hw : s.wait = .none)
    (hh : s.halted = false) (h : s.script = m :: rest) : seqEnabled s = true := by
  simp [seqEnabled, hw, hh, h]

theorem seqEnabled_of_req {s : State} {r : Request} (hw : s.wait = .none) (hh : s.halted = false)
    (hr : s.req = some r) : seqEnabled s = true := by
  simp [seqEnabled, hw, hh, hr]

theorem xportTurn_eq (s : State) : xportTurn s = { s with wait := if s.wait = .tx then .none else s.wait } := by
  obtain ⟨_, _, _, _, _, _, _, _, _, _, _, _, w, _, _, _, _⟩ := s
  cases w <;> rfl

theorem timerTurn_eq (s : State) : timerTurn s = { s with wait := if s.wait = .tx then .tx else .none } := by
  obtain ⟨_, _, _, _, _, _, _, _, _, _, _, _, w, _, _, _, _⟩ := s
  cases w <;> rfl

/-- HOST presents its next request, or nothing changes. -/
theorem hostPresents_cases (s : State) :
    hostPresents s = s ∨
    ∃ r rest, s.req = none ∧ s.host = r :: rest ∧ hostPresents s = { s with req := some r, host := rest } := by
  unfold hostPresents
  split
  · rename_i r rest h1 h2; exact .inr ⟨r, rest, h1, h2, rfl⟩
  · exact .inl rfl

/-- A read changes nothing (20_memory.md R55). -/
@[simp] theorem hostReads_eq (p : ReadPort) (s : State) : hostReads p s = s := rfl

/-! ### Runs -/

@[simp] theorem runSteps_zero (s : State) : runSteps 0 s = .next s := rfl

/-- A run goes on from the state its first step answers. -/
theorem runSteps_succ {s t : State} (n : Nat) (h : step s = .next t) : runSteps (n + 1) s = runSteps n t := by
  rw [runSteps, h]

/-- Two runs one after the other are one run. -/
theorem runSteps_add {m : Nat} {s t : State} (n : Nat) (h : runSteps m s = .next t) :
    runSteps (m + n) s = runSteps n t := by
  induction m generalizing s with
  | zero => cases h; simp
  | succ m ih =>
    rw [runSteps] at h
    rw [Nat.succ_add, runSteps]
    cases hs : step s with
    | next u => rw [hs] at h; exact ih h
    | fault f => rw [hs] at h; cases h
    | refused r => rw [hs] at h; cases h

theorem hostRun_next (M : Host.Core) (n : Nat) {s t : M.State} (h : M.step s = .next t) :
    M.run (n + 1) s = M.run n t := by
  rw [Host.Core.run, h]

theorem hostRun_fault (M : Host.Core) (n : Nat) {s : M.State} {f : M.Fault} (h : M.step s = .fault f) :
    M.run (n + 1) s = .fault f := by
  rw [Host.Core.run, h]

theorem hostRun_refused (M : Host.Core) (n : Nat) {s : M.State} {r : M.Refusal} (h : M.step s = .refused r) :
    M.run (n + 1) s = .refused r := by
  rw [Host.Core.run, h]

/-- `runSteps` is the host's run of the machine. -/
theorem runSteps_eq_run (n : Nat) (s : State) : runSteps n s = Host.Core.run core n s := by
  induction n generalizing s with
  | zero => rfl
  | succ n ih =>
    cases h : step s with
    | next t => exact (runSteps_succ n h).trans ((ih t).trans (hostRun_next core n h).symm)
    | fault f => exact (by rw [runSteps, h] : runSteps (n + 1) s = .fault f).trans (hostRun_fault core n h).symm
    | refused r =>
      exact (by rw [runSteps, h] : runSteps (n + 1) s = .refused r).trans (hostRun_refused core n h).symm

end Sys2Proof.Machine
end

