-- ==== Sys2Proof/Laws/Step.lean ====
section
/-!
SUPPORT. One inversion lemma for the acceptance of a request and one for the step: everything either can do, said once.
-/

namespace Sys2Proof.Machine

/-! ### What SEQ fetches -/

theorem decodeNoPayload_ok {op : Byte} {i j : Instr} {p : List Byte} (h : decodeNoPayload op i p = .ok j) :
    j = i ∧ p = [] := by
  cases p with
  | nil => cases h; exact ⟨rfl, rfl⟩
  | cons b bs => cases h

theorem decodeOneByte_ok {op : Byte} {f : Byte → Instr} {j : Instr} {p : List Byte}
    (h : decodeOneByte op f p = .ok j) : ∃ v, j = f v ∧ p = [v] := by
  match p, h with
  | [v], h => cases h; exact ⟨v, rfl, rfl⟩
  | [], h => cases h
  | _ :: _ :: _, h => cases h

theorem decodeWindow_ok {op : Byte} {f : BitVec 16 → BitVec 16 → Instr} {j : Instr} {p : List Byte}
    (h : decodeWindow op f p = .ok j) : ∃ a b, j = f a b ∧ p = windowPayload a b := by
  match p, h with
  | [sh, sl, eh, el], h =>
    cases h
    exact ⟨_, _, rfl, by simp [windowPayload]⟩
  | [], h => cases h
  | [_], h => cases h
  | [_, _], h => cases h
  | [_, _, _], h => cases h
  | _ :: _ :: _ :: _ :: _ :: _, h => cases h

/-- A list of bytes that decodes as a wire command is that command's own encoding. -/
theorem decodeWire_ok {c : Config} {bytes : List Byte} {i : Instr} (h : decodeWire c bytes = .ok i) :
    i.isWire = true ∧ encode c i = .command bytes := by
  unfold decodeWire at h
  split at h
  · cases h
  · repeat' split at h
    all_goals subst_vars
    all_goals first
      | (obtain ⟨rfl, rfl⟩ := decodeNoPayload_ok h; exact ⟨rfl, rfl⟩)
      | (obtain ⟨v, rfl, rfl⟩ := decodeOneByte_ok h; exact ⟨rfl, rfl⟩)
      | (obtain ⟨a, b, rfl, rfl⟩ := decodeWindow_ok h; exact ⟨rfl, rfl⟩)
      | cases h

/-- What SEQ fetches from a script is the wire command whose frame stands there. -/
theorem fetchWire_ok {c : Config} {ms rest : List MicroOp} {i : Instr} (h : fetchWire c ms = some (i, rest)) :
    i.isWire = true ∧ ms = wireFrame c i ++ rest := by
  unfold fetchWire at h
  split at h
  · cases h
  · rename_i heq
    split at h
    · rename_i hd
      cases h
      obtain ⟨op, p, rfl, rfl⟩ := takeFrame_spec heq
      obtain ⟨hi, he⟩ := decodeWire_ok hd
      exact ⟨hi, by rw [wireFrame_of_encode he]⟩
    · cases h

/-- A script step is the head micro-op, whatever SEQ fetches there (42_wire_protocol.md R150). -/
theorem scriptStep_eq {s : State} {m : MicroOp} {rest : List MicroOp} (h : s.script = m :: rest) :
    scriptStep s = microOp m { s with script := rest } := by
  unfold scriptStep
  split
  · rename_i heq
    obtain ⟨hi, hs⟩ := fetchWire_ok heq
    rw [exec_wire hi]
    exact startFrame_eq_microOp s (hs.symm.trans h)
  · rw [h]

/-! ### Acceptance -/

/-- A drawing request's new frame buffer is canonical and loses no cell's value. -/
structure DrawsOn (s : State) (fb' : Fb) : Prop where
  wf : Fb.wf s.cfg.cells s.fb = true → Fb.wf s.cfg.cells fb' = true
  keeps : Fb.wf s.cfg.cells s.fb = true → ∀ i, (Fb.read i s.fb).isSome = true → (Fb.read i fb').isSome = true

theorem drawsOn_paint (s : State) (sel : Nat → Bool) (p : Pixel) :
    DrawsOn s (Fb.paint s.cfg.cells sel p s.fb) where
  wf h := Fb.wf_paint h
  keeps h i hi := by
    rw [Fb.read_paint h]
    split
    · rfl
    · exact hi

theorem drawsOn_plot (s : State) (x y : Int) (p : Pixel) : DrawsOn s (plot x y p s).fb where
  wf h := wf_plot x y p h
  keeps _ i hi := by
    unfold plot
    split
    · rw [memWrite_fb, Fb.read_write]
      split
      · rfl
      · exact hi
    · exact hi

theorem plot_eq (x y : Int) (p : Pixel) (s : State) : plot x y p s = { s with fb := (plot x y p s).fb } := by
  unfold plot
  split <;> rfl

/-- Everything the acceptance of a request can do (60_exceptions.md R227): fault, draw, encode, or load a script. -/
theorem accept_cases (r : Request) (s : State) :
    (∃ c, accept r s = .next (raiseFault c { s with req := none })) ∨
    (r.op = 0x07 ∧ accept r s = .next { s with req := none, rPix := some (encodeRgb r.rgb) }) ∨
    ((r.op = 0x03 ∨ r.op = 0x04 ∨ r.op = 0x05 ∨ r.op = 0x06) ∧ s.phase ≠ .uninit ∧
      ∃ fb', DrawsOn s fb' ∧ accept r s = .next { s with req := none, fb := fb' }) ∨
    (r.op = 0x01 ∧ s.phase = .uninit ∧ accept r s = .next { s with req := none, script := beginScript s.cfg }) ∨
    (r.op = 0x02 ∧ s.phase ≠ .uninit ∧
      accept r s = .next { s with req := none, script := displayScript s.cfg }) := by
  have draw : ∀ k : State → Host.Outcome State Fault Refusal,
      afterBegin k { s with req := none } = .next (raiseFault .useBeforeBegin { s with req := none }) ∨
      (s.phase ≠ .uninit ∧ afterBegin k { s with req := none } = k { s with req := none }) := fun k =>
    (afterBegin_cases k { s with req := none }).imp And.right id
  unfold accept decodeRequest
  by_cases h1 : r.op = 0x01
  · rw [if_pos h1]
    by_cases hp : s.phase = .uninit
    · exact .inr (.inr (.inr (.inl ⟨h1, hp, if_pos hp⟩)))
    · exact .inl ⟨_, if_neg hp⟩
  by_cases h2 : r.op = 0x02
  · rw [if_neg h1, if_pos h2]
    rcases draw (fun s => .next (loadScript (displayScript s.cfg) s)) with h | ⟨hp, h⟩
    · exact .inl ⟨_, h⟩
    · exact .inr (.inr (.inr (.inr ⟨h2, hp, h⟩)))
  by_cases h3 : r.op = 0x03
  · rw [if_neg h1, if_neg h2, if_pos h3]
    rcases draw (fun s => .next (fillAll r.pix s)) with h | ⟨hp, h⟩
    · exact .inl ⟨_, h⟩
    · exact .inr (.inr (.inl ⟨.inl h3, hp, _, drawsOn_paint s (fun _ => true) r.pix, h⟩))
  by_cases h4 : r.op = 0x04
  · rw [if_neg h1, if_neg h2, if_neg h3, if_pos h4]
    rcases draw (fun s => .next (plot (coord r.x) (coord r.y) r.pix s)) with h | ⟨hp, h⟩
    · exact .inl ⟨_, h⟩
    · have hd := drawsOn_plot { s with req := none } (coord r.x) (coord r.y) r.pix
      refine .inr (.inr (.inl ⟨.inr (.inl h4), hp, _, ⟨hd.wf, hd.keeps⟩, h.trans ?_⟩))
      exact congrArg _ (plot_eq (coord r.x) (coord r.y) r.pix { s with req := none })
  by_cases h5 : r.op = 0x05
  · rw [if_neg h1, if_neg h2, if_neg h3, if_neg h4, if_pos h5]
    rcases draw (ifRectFits r.x r.y r.wd r.ht fun s =>
      .next (paintCells (inOutline s.cfg r.x r.y r.wd r.ht) r.pix s)) with h | ⟨hp, h⟩
    · exact .inl ⟨_, h⟩
    · rcases ifRectFits_cases r.x r.y r.wd r.ht (fun s =>
        .next (paintCells (inOutline s.cfg r.x r.y r.wd r.ht) r.pix s)) { s with req := none } with ⟨_, hk⟩ | ⟨_, hk⟩
      · exact .inr (.inr (.inl ⟨.inr (.inr (.inl h5)), hp, _, drawsOn_paint s _ r.pix, h.trans hk⟩))
      · exact .inl ⟨_, h.trans hk⟩
  by_cases h6 : r.op = 0x06
  · rw [if_neg h1, if_neg h2, if_neg h3, if_neg h4, if_neg h5, if_pos h6]
    rcases draw (ifRectFits r.x r.y r.wd r.ht fun s =>
      .next (paintCells (inFill s.cfg r.x r.y r.wd r.ht) r.pix s)) with h | ⟨hp, h⟩
    · exact .inl ⟨_, h⟩
    · rcases ifRectFits_cases r.x r.y r.wd r.ht (fun s =>
        .next (paintCells (inFill s.cfg r.x r.y r.wd r.ht) r.pix s)) { s with req := none } with ⟨_, hk⟩ | ⟨_, hk⟩
      · exact .inr (.inr (.inl ⟨.inr (.inr (.inr h6)), hp, _, drawsOn_paint s _ r.pix, h.trans hk⟩))
      · exact .inl ⟨_, h.trans hk⟩
  by_cases h7 : r.op = 0x07
  · rw [if_neg h1, if_neg h2, if_neg h3, if_neg h4, if_neg h5, if_neg h6, if_pos h7]
    exact .inr (.inl ⟨h7, rfl⟩)
  · rw [if_neg h1, if_neg h2, if_neg h3, if_neg h4, if_neg h5, if_neg h6, if_neg h7]
    exact .inl ⟨_, rfl⟩

/-! ### The step -/

/-- Everything a step that completes can do: nothing but use up a turn; a script step; an acceptance; the end of a
wait by the agent it belongs to; HOST presenting a request; or block reset. `ts` are the turns left. -/
theorem step_inversion {s t : State} (h : step s = .next t) :
    ∃ ts, (ts = s.turns.tail) ∧
      ((t = { s with turns := ts }) ∨
       (∃ m rest, s.script = m :: rest ∧ s.wait = .none ∧ s.halted = false ∧
          microOp m { s with script := rest, turns := ts } = .next t) ∨
       (∃ r, s.script = [] ∧ s.wait = .none ∧ s.halted = false ∧ s.req = some r ∧
          accept r { s with turns := ts } = .next t) ∨
       (((s.wait = .tx ∧ Moves .xport s) ∨ ∃ d, s.wait = .delay d ∧ Moves .timer s) ∧
          t = { s with turns := ts, wait := .none }) ∨
       (∃ r rest, s.req = none ∧ s.host = r :: rest ∧ t = { s with turns := ts, req := some r, host := rest }) ∨
       (s.turns.head? = some .blockReset ∧ t = blockReset { s with turns := ts })) := by
  obtain ⟨u, ts, hstep, hu⟩ := step_cases s
  rw [hstep] at h
  have hts : ts = s.turns.tail := by
    rcases hu with hu | ⟨hu, rfl, _⟩ <;> rw [hu] <;> rfl
  have hmoves : Moves u s := by
    rcases hu with hu | ⟨hu, _, rfl⟩
    · exact .inl (by rw [hu]; rfl)
    · exact .inr ⟨hu, rfl⟩
  refine ⟨ts, hts, ?_⟩
  cases u with
  | seq =>
    simp only [turn] at h
    rcases seqTurn_cases { s with turns := ts } with hc | ⟨hw, hh, hs, hc⟩ | ⟨r, hw, hh, hs, hr, hc⟩
    · rw [hc] at h; cases h; exact .inl rfl
    · obtain ⟨m, rest, hmr⟩ := List.exists_cons_of_ne_nil hs
      rw [hc, scriptStep_eq hmr] at h
      exact .inr (.inl ⟨m, rest, hmr, hw, hh, h⟩)
    · rw [hc] at h
      exact .inr (.inr (.inl ⟨r, hs, hw, hh, hr, h⟩))
  | xport =>
    simp only [turn, xportTurn_eq] at h
    cases h
    by_cases hw : s.wait = .tx
    · exact .inr (.inr (.inr (.inl ⟨.inl ⟨hw, hmoves⟩, by simp [hw]⟩)))
    · exact .inl (by simp [hw])
  | timer =>
    simp only [turn, timerTurn_eq] at h
    cases h
    cases hw : s.wait with
    | none => left; obtain ⟨_, _, _, _, _, _, _, _, _, _, _, _, w, _, _, _, _⟩ := s; cases hw; rfl
    | tx => left; obtain ⟨_, _, _, _, _, _, _, _, _, _, _, _, w, _, _, _, _⟩ := s; cases hw; rfl
    | delay d => exact .inr (.inr (.inr (.inl ⟨.inr ⟨d, rfl, hmoves⟩, by simp⟩)))
  | hostPresents =>
    simp only [turn] at h
    cases h
    rcases hostPresents_cases { s with turns := ts } with hc | ⟨r, rest, hr, hh, hc⟩
    · exact .inl hc
    · exact .inr (.inr (.inr (.inr (.inl ⟨r, rest, hr, hh, hc⟩))))
  | hostReads p =>
    simp only [turn] at h
    cases h
    exact .inl rfl
  | blockReset =>
    simp only [turn] at h
    cases h
    refine .inr (.inr (.inr (.inr (.inr ⟨?_, rfl⟩))))
    rcases hu with hu | ⟨_, _, hu⟩
    · rw [hu]; rfl
    · rcases defaultTurn_cases s with ⟨hd, _⟩ | ⟨hd, _⟩ | ⟨hd, _⟩ | hd <;> rw [hd] at hu <;> cases hu

end Sys2Proof.Machine
end

