-- ==== Sys2Proof/Laws/Scripts.lean ====
section
/-!
SUPPORT. Running scripts: what each micro-op does to the lines and to WAIT, what the two scripts do to the lines as a
whole, and one lemma for a run of a list of micro-ops under the fairness assumptions.
-/

namespace Sys2Proof.Machine

/-! ### The lines -/

/-- A micro-op that completes moves the lines as its rule says, and waits on what its rule says. -/
theorem microOp_lines {m : MicroOp} {s t : State} (h : microOp m s = .next t) (hw : s.wait = .none) :
    t.lines = m.onLines s.lines ∧ t.wait = m.waits := by
  cases m with
  | txPix k =>
    rcases txPix_cases k s with ⟨p, _, hp⟩ | hp | hp <;> rw [microOp_txPix, hp] at h <;> cases h
    exact ⟨rfl, rfl⟩
  | _ => cases h; exact ⟨rfl, by first | rfl | exact hw⟩

@[simp] theorem linesAfter_nil (l : Lines) : linesAfter [] l = l := rfl

@[simp] theorem linesAfter_cons (m : MicroOp) (ms : List MicroOp) (l : Lines) :
    linesAfter (m :: ms) l = linesAfter ms (m.onLines l) := rfl

theorem linesAfter_append (ms ms' : List MicroOp) (l : Lines) :
    linesAfter (ms ++ ms') l = linesAfter ms' (linesAfter ms l) := List.foldl_append

/-- Bytes do not move the lines. -/
theorem linesAfter_tx (bs : List Byte) (l : Lines) : linesAfter (bs.map .tx) l = l := by
  induction bs with
  | nil => rfl
  | cons b bs ih => exact ih

/-- Stream bytes do not move the lines. -/
theorem linesAfter_txPix (ks : List Nat) (l : Lines) : linesAfter (ks.map .txPix) l = l := by
  induction ks with
  | nil => rfl
  | cons k ks ih => exact ih

/-- A frame leaves chip-select released and the mode line at its last mode. -/
theorem linesAfter_cmdFrame (op : Byte) (payload : List Byte) (l : Lines) :
    linesAfter (cmdFrame op payload) l =
      { l with csOut := .released, dcOut := .driven (if payload = [] then .cmd else .data) } := by
  cases payload with
  | nil => rfl
  | cons b bs => rw [cmdFrame, linesAfter_append, linesAfter_append, linesAfter_tx]; rfl

/-- The BEGIN script takes the reset lines to those of an idle active block (43_sequences.md R190). -/
theorem linesAfter_beginScript (c : Config) : linesAfter (beginScript c) resetLines = activeLines .cmd := rfl

/-- The DISPLAY script leaves the lines as before, the mode line in data mode (43_sequences.md R195). -/
theorem linesAfter_displayScript (c : Config) (m : DcMode) :
    linesAfter (displayScript c) (activeLines m) = activeLines .data := by
  simp only [displayScript, streamScript, linesAfter_append, linesAfter_cmdFrame, linesAfter_txPix]
  rfl

/-! ### The shape of the scripts -/

/-- The BEGIN script without its last micro-op, CLEAR_FB. -/
def beginScriptHead (c : Config) : List MicroOp := (beginScript c).dropLast

theorem beginScript_eq (c : Config) : beginScript c = beginScriptHead c ++ [.clearFb pixBlack] := rfl

/-- Before its last micro-op the BEGIN script neither clears nor streams. -/
theorem mem_beginScriptHead {c : Config} {m : MicroOp} (h : m ∈ beginScriptHead c) :
    (∀ p, m ≠ .clearFb p) ∧ ∀ k, m ≠ .txPix k := by
  simp only [beginScriptHead, beginScript, cmdFrame, List.map, List.dropLast, List.cons_append, List.nil_append,
    List.mem_cons, List.not_mem_nil, or_false] at h
  refine ⟨?_, ?_⟩ <;> rintro v rfl <;> simp at h

/-- A micro-op of the BEGIN script is CLEAR_FB at its end, or one of those before it. -/
theorem beginScript_split {c : Config} {done rest : List MicroOp} {m : MicroOp}
    (h : beginScript c = done ++ m :: rest) :
    (rest = [] ∧ m = .clearFb pixBlack ∧ done = beginScriptHead c) ∨ (rest ≠ [] ∧ m ∈ beginScriptHead c) := by
  rw [beginScript_eq] at h
  rcases List.eq_nil_or_concat rest with rfl | ⟨r, x, rfl⟩
  · obtain ⟨h1, h2⟩ := List.append_inj' h rfl
    cases h2
    exact .inl ⟨rfl, rfl, h1.symm⟩
  · refine .inr ⟨by simp, ?_⟩
    rw [List.concat_eq_append, ← List.cons_append, ← List.append_assoc] at h
    rw [(List.append_inj' h rfl).1]
    simp

/-- The micro-ops of the DISPLAY script: chip-select, mode, bytes and stream bytes of the frame buffer's cells. -/
theorem mem_displayScript {c : Config} {m : MicroOp} (h : m ∈ displayScript c) :
    (∃ a, m = .setCs a) ∨ (∃ d, m = .setDc d) ∨ (∃ b, m = .tx b) ∨ ∃ k, k < 2 * c.cells ∧ m = .txPix k := by
  simp only [displayScript, cmdFrame, windowPayload, streamScript, List.map, List.cons_append, List.nil_append,
    List.mem_cons, List.mem_append, List.mem_map, List.mem_range, List.not_mem_nil, or_false] at h
  rcases h with rfl | rfl | rfl | rfl | rfl | rfl | rfl | rfl | rfl | rfl | rfl | rfl | rfl | rfl | rfl | rfl | rfl |
    rfl | rfl | rfl | rfl | rfl | rfl | rfl | ⟨k, hk, rfl⟩ | rfl
  all_goals simp_all

/-! ### The discipline of the scripts -/

/-- Every micro-op of a list, with the lines it is performed at, has a property. -/
def AllAlong (P : Lines → MicroOp → Prop) : List MicroOp → Lines → Prop
  | [], _ => True
  | m :: ms, l => P l m ∧ AllAlong P ms (m.onLines l)

theorem allAlong_append {P : Lines → MicroOp → Prop} {ms ms' : List MicroOp} {l : Lines} :
    AllAlong P (ms ++ ms') l ↔ AllAlong P ms l ∧ AllAlong P ms' (linesAfter ms l) := by
  induction ms generalizing l with
  | nil => simp [AllAlong]
  | cons m ms ih => simp [AllAlong, ih, and_assoc]

/-- What holds along a list holds where it is split. -/
theorem AllAlong.at_split {P : Lines → MicroOp → Prop} {done rest : List MicroOp} {m : MicroOp} {l : Lines}
    (h : AllAlong P (done ++ m :: rest) l) : P (linesAfter done l) m :=
  (allAlong_append.mp h).2.1

/-- A byte leaves only inside a transaction, at the rate of its phase (10_state.md R39, 42_wire_protocol.md R176). -/
def ByteFits (l : Lines) : Prop :=
  l.csOut = .asserted ∧ (l.dcOut = .driven .cmd ∨ l.dcOut = .driven .data) ∧
  ((l.phase = .config ∧ l.rate = .slow) ∨ (l.phase = .active ∧ l.rate = .fast))

/-- What the spec says of the lines at which each micro-op is performed: bytes as `ByteFits` says, delays with
chip-select released (42_wire_protocol.md R164), RATE and PHASE written as 10_state.md R21 and R27 say. -/
def MicroOp.Fits (l : Lines) : MicroOp → Prop
  | .setRst _ => True
  | .setCs _ => l.phase ≠ .reset
  | .setDc _ => True
  | .tx _ => ByteFits l
  | .txPix _ => ByteFits l
  | .wait _ => l.csOut = .released
  | .setRate r => l.rate = .slow ∧ r = .fast ∧ l.phase = .config
  | .setPhase p => (l.phase = .uninit ∧ p = .reset) ∨ (l.phase = .reset ∧ p = .config) ∨ (l.phase = .config ∧ p = .active)
  | .clearFb _ => True

/-- The lines at every point of a script: chip-select is released during the reset pulse (42_wire_protocol.md R164). -/
def PointFits (l : Lines) (m : MicroOp) : Prop := m.Fits l ∧ (l.phase = .reset → l.csOut = .released)

/-- The BEGIN script keeps the discipline. -/
theorem beginScript_fits (c : Config) : AllAlong PointFits (beginScript c) resetLines := by
  simp [beginScript, cmdFrame, AllAlong, PointFits, MicroOp.Fits, ByteFits, MicroOp.onLines, resetLines]

theorem allAlong_txPix {P : Lines → MicroOp → Prop} {l : Lines} (h : ∀ k, P l (.txPix k)) (ks : List Nat) :
    AllAlong P (ks.map .txPix) l := by
  induction ks with
  | nil => trivial
  | cons k ks ih => exact ⟨h k, ih⟩

/-- The DISPLAY script keeps the discipline. -/
theorem displayScript_fits (c : Config) (d : DcMode) : AllAlong PointFits (displayScript c) (activeLines d) := by
  simp only [displayScript, streamScript, allAlong_append, linesAfter_append, linesAfter_cmdFrame, linesAfter_txPix]
  refine ⟨⟨⟨?_, ?_⟩, ?_⟩, ⟨?_, allAlong_txPix (fun k => ?_) _⟩, ?_⟩ <;>
    simp [cmdFrame, windowPayload, AllAlong, PointFits, MicroOp.Fits, ByteFits, MicroOp.onLines, activeLines]

theorem beginScript_length (c : Config) : (beginScript c).length = 42 := rfl

theorem displayScript_length (c : Config) : (displayScript c).length = 2 * c.cells + 25 := by
  simp [displayScript, cmdFrame, windowPayload, streamScript]

/-! ### Running a script -/

/-- How many steps a micro-op takes with its completion or expiry. -/
def MicroOp.cost (m : MicroOp) : Nat := if m.waits = .none then 1 else 2

/-- With no turn listed, XPORT's completion and TIMER's expiry taken when enabled, a micro-op with its wait is one or two
steps, and leaves what the micro-op left, with no wait. -/
theorem runSteps_microOp {s t : State} {m : MicroOp} {rest : List MicroOp} (hs : s.script = m :: rest)
    (hw : s.wait = .none) (hh : s.halted = false) (ht : s.turns = []) (hx : m.waits = .tx → s.xportReady = true)
    (hd : ∀ d, m.waits = .delay d → s.timerReady = true) (h : microOp m { s with script := rest } = .next t) :
    runSteps m.cost s = .next { t with wait := .none } := by
  have hstep : step s = .next t := by
    rw [← h, ← scriptStep_eq hs, step, nextStep, ht]
    simp only [defaultTurn, seqEnabled_of_script hw hh hs, if_true, turn]
    exact seqTurn_of_script hw hh hs
  obtain ⟨-, htw⟩ := microOp_lines h hw
  obtain ⟨-, -, -, -, -, -, htt, htx, htd⟩ := microOp_frame h
  simp only at htt htx htd
  have hseq : t.wait ≠ .none → seqEnabled t = false := fun hne => by simp [seqEnabled, hne]
  unfold MicroOp.cost
  split
  · rename_i hm
    rw [hm] at htw
    rw [runSteps_succ 0 hstep, runSteps_zero, ← htw]
  · rename_i hm
    rw [runSteps_succ 1 hstep]
    have second : step t = .next { t with wait := .none } := by
      have hne : t.wait ≠ .none := htw ▸ hm
      rw [step, nextStep, htt, ht]
      simp only [defaultTurn, hseq hne]
      cases hmw : m.waits with
      | none => exact absurd hmw hm
      | tx =>
        rw [hmw] at htw
        simp [htw, htx, htt, ht, hx hmw, turn, xportTurn_eq]
      | delay d =>
        rw [hmw] at htw
        simp [htw, htd, htt, ht, hd d hmw, turn, timerTurn_eq]
    rw [runSteps_succ 0 second, runSteps_zero]

/-- The steps of a list of micro-ops. -/
def scriptCost (ms : List MicroOp) : Nat := (ms.map MicroOp.cost).sum

theorem scriptCost_append (ms ms' : List MicroOp) : scriptCost (ms ++ ms') = scriptCost ms + scriptCost ms' := by
  simp [scriptCost]

@[simp] theorem scriptCost_cons (m : MicroOp) (ms : List MicroOp) : scriptCost (m :: ms) = m.cost + scriptCost ms := rfl

/-- The event a micro-op emits, given the lines it finds and the pixel TX_PIX reads there. -/
def MicroOp.event (c : Config) (fb : Fb) (l : Lines) : MicroOp → List Event
  | .setRst v => [.rst v]
  | .setCs a => [.cs a]
  | .setDc m => [.dc m]
  | .tx b => [.byte b l.dcOut l.rate]
  | .txPix k => ((Fb.read (k / 2) fb).map fun p => Event.byte (pixelByte c.wireOrder k p) l.dcOut l.rate).toList
  | .wait d => [.delay d]
  | .setRate r => [.rate r]
  | .setPhase _ => []
  | .clearFb _ => []

/-- The events of a list of micro-ops run from given lines. -/
def eventsOf (c : Config) (fb : Fb) : List MicroOp → Lines → List Event
  | [], _ => []
  | m :: ms, l => m.event c fb l ++ eventsOf c fb ms (m.onLines l)

theorem eventsOf_append (c : Config) (fb : Fb) (ms ms' : List MicroOp) (l : Lines) :
    eventsOf c fb (ms ++ ms') l = eventsOf c fb ms l ++ eventsOf c fb ms' (linesAfter ms l) := by
  induction ms generalizing l with
  | nil => rfl
  | cons m ms ih => simp [eventsOf, ih]

/-- A state with other lines. -/
def State.withLines (l : Lines) (s : State) : State :=
  { s with phase := l.phase, rstOut := l.rstOut, csOut := l.csOut, dcOut := l.dcOut, rate := l.rate }

/-- A micro-op that does not clear, and that can read the cell it streams, completes with its event and its lines. -/
theorem microOp_next {m : MicroOp} (s : State) (hc : ∀ p, m ≠ .clearFb p)
    (hk : ∀ k, m = .txPix k → k / 2 < s.cfg.cells ∧ (Fb.read (k / 2) s.fb).isSome = true) (hw : s.wait = .none) :
    microOp m s = .next { s.withLines (m.onLines s.lines) with
      wait := m.waits, traceRev := (m.event s.cfg s.fb s.lines).reverse ++ s.traceRev } := by
  cases m with
  | clearFb p => exact absurd rfl (hc p)
  | txPix k =>
    obtain ⟨hlt, hsome⟩ := hk k rfl
    obtain ⟨p, hp⟩ := Option.isSome_iff_exists.mp hsome
    rw [microOp_txPix, txPix_of_read hlt hp]
    simp only [MicroOp.event, hp]
    rfl
  | setPhase p => obtain ⟨_, _, _, _, _, _, _, _, _, _, _, _, w, _, _, _, _⟩ := s; cases hw; rfl
  | setRst p => obtain ⟨_, _, _, _, _, _, _, _, _, _, _, _, w, _, _, _, _⟩ := s; cases hw; rfl
  | setCs p => obtain ⟨_, _, _, _, _, _, _, _, _, _, _, _, w, _, _, _, _⟩ := s; cases hw; rfl
  | setDc p => obtain ⟨_, _, _, _, _, _, _, _, _, _, _, _, w, _, _, _, _⟩ := s; cases hw; rfl
  | setRate p => obtain ⟨_, _, _, _, _, _, _, _, _, _, _, _, w, _, _, _, _⟩ := s; cases hw; rfl
  | _ => rfl

/-- Running a list of micro-ops that clear nothing, with the cells they stream readable: the events in order, the
lines after them, and nothing else. -/
theorem runSteps_script (ms rest : List MicroOp) (s : State) (hs : s.script = ms ++ rest) (hw : s.wait = .none)
    (hh : s.halted = false) (ht : s.turns = []) (hx : s.xportReady = true)
    (hd : (∃ d, .wait d ∈ ms) → s.timerReady = true) (hc : ∀ p, .clearFb p ∉ ms)
    (hk : ∀ k, .txPix k ∈ ms → k / 2 < s.cfg.cells ∧ (Fb.read (k / 2) s.fb).isSome = true) :
    runSteps (scriptCost ms) s = .next { s.withLines (linesAfter ms s.lines) with
      script := rest, traceRev := (eventsOf s.cfg s.fb ms s.lines).reverse ++ s.traceRev } := by
  induction ms generalizing s with
  | nil =>
    obtain ⟨_, _, _, _, _, _, _, _, _, _, _, _, _, _, _, _, _⟩ := s
    cases hs; rfl
  | cons m ms ih =>
    have hm := microOp_next (m := m) { s with script := ms ++ rest } (fun p hp => hc p (hp ▸ .head _))
      (fun k h => hk k (h ▸ .head _)) hw
    have hmd : ∀ d, m.waits = .delay d → s.timerReady = true := fun d h => hd ⟨d, by
      cases m <;> simp only [MicroOp.waits, reduceCtorEq, Wait.delay.injEq] at h
      subst h; exact .head _⟩
    have h1 := runSteps_microOp hs hw hh ht (fun _ => hx) hmd hm
    have h2 := ih { s.withLines (m.onLines s.lines) with
        script := ms ++ rest, wait := .none, traceRev := (m.event s.cfg s.fb s.lines).reverse ++ s.traceRev }
      rfl rfl hh ht hx (fun ⟨d, h⟩ => hd ⟨d, .tail _ h⟩) (fun p h => hc p (.tail _ h)) (fun k h => hk k (.tail _ h))
    rw [scriptCost_cons, runSteps_add _ h1]
    refine Eq.trans h2 ?_
    simp only [eventsOf, List.reverse_append, List.append_assoc]
    obtain ⟨_, _, _, _, _, _, _, _, _, _, _, _, w, _, _, _, _⟩ := s
    cases hw
    rfl

/-! ### The costs and events of frames and streams -/

@[simp] theorem scriptCost_nil : scriptCost [] = 0 := rfl

theorem scriptCost_tx (bs : List Byte) : scriptCost (bs.map .tx) = 2 * bs.length := by
  induction bs with
  | nil => rfl
  | cons b bs ih =>
    rw [List.map_cons, scriptCost_cons, ih, List.length_cons, show (MicroOp.tx b).cost = 2 from rfl]
    omega

theorem scriptCost_txPix (ks : List Nat) : scriptCost (ks.map .txPix) = 2 * ks.length := by
  induction ks with
  | nil => rfl
  | cons k ks ih =>
    rw [List.map_cons, scriptCost_cons, ih, List.length_cons, show (MicroOp.txPix k).cost = 2 from rfl]
    omega

/-- A frame takes one step a micro-op and one more a byte. -/
theorem scriptCost_cmdFrame (op : Byte) (payload : List Byte) :
    scriptCost (cmdFrame op payload) = (cmdFrame op payload).length + (op :: payload).length := by
  cases payload with
  | nil => rfl
  | cons b bs =>
    rw [cmdFrame, scriptCost_append, scriptCost_append, scriptCost_tx]
    simp [MicroOp.cost, MicroOp.waits]
    omega

/-- Bytes carry the lines they find. -/
theorem eventsOf_tx (c : Config) (fb : Fb) (bs : List Byte) (l : Lines) :
    eventsOf c fb (bs.map .tx) l = bs.map fun v => Event.byte v l.dcOut l.rate := by
  induction bs with
  | nil => rfl
  | cons b bs ih => simp [eventsOf, MicroOp.event, MicroOp.onLines, ih]

/-- A frame emits the events of its trace line (30_encoding.md R88). -/
theorem eventsOf_cmdFrame (c : Config) (fb : Fb) (op : Byte) (payload : List Byte) (l : Lines) :
    eventsOf c fb (cmdFrame op payload) l = (TraceLine.cmd op payload).events l.rate := by
  cases payload with
  | nil => rfl
  | cons b bs => simp [cmdFrame, eventsOf, eventsOf_append, eventsOf_tx, MicroOp.event, MicroOp.onLines, TraceLine.events]

/-- A frame moves only chip-select and the mode line, whatever the command. -/
theorem mem_cmdFrame {op : Byte} {payload : List Byte} {m : MicroOp} (h : m ∈ cmdFrame op payload) :
    (∃ a, m = .setCs a) ∨ (∃ d, m = .setDc d) ∨ ∃ b, m = .tx b := by
  cases payload with
  | nil =>
    simp only [cmdFrame, List.mem_cons, List.not_mem_nil, or_false] at h
    rcases h with rfl | rfl | rfl | rfl <;> simp
  | cons b bs =>
    simp only [cmdFrame, List.mem_append, List.mem_cons, List.mem_map, List.not_mem_nil, or_false] at h
    rcases h with ((rfl | rfl | rfl | rfl) | ⟨_, _, rfl⟩) | rfl <;> simp

/-- The stream bytes of one pixel after another, from pixel `n` on, are the bytes of `ps` in the wire order. -/
theorem eventsOf_stream (c : Config) (fb : Fb) (l : Lines) (ps : List Pixel) (n : Nat)
    (h : ∀ i, i < ps.length → Fb.read (n + i) fb = ps[i]?) :
    eventsOf c fb ((List.range' (2 * n) (2 * ps.length)).map .txPix) l =
      (streamBytes c.wireOrder ps).map fun v => Event.byte v l.dcOut l.rate := by
  induction ps generalizing n with
  | nil => rfl
  | cons p ps ih =>
    have h0 : Fb.read n fb = some p := by simpa using h 0 (by simp)
    have hrest := ih (n + 1) fun i hi => by
      have := h (i + 1) (by simpa using hi)
      rw [show n + 1 + i = n + (i + 1) by omega, this]
      simp
    rw [List.length_cons, show 2 * (ps.length + 1) = 2 * ps.length + 1 + 1 by omega, List.range'_succ, List.range'_succ,
      List.map_cons, List.map_cons, eventsOf, eventsOf, show 2 * n + 1 + 1 = 2 * (n + 1) by omega]
    simp only [MicroOp.onLines, hrest, MicroOp.event, show 2 * n / 2 = n by omega, show (2 * n + 1) / 2 = n by omega, h0]
    have e0 : (2 * n) % 2 = 0 := by omega
    have e1 : (2 * n + 1) % 2 = 1 := by omega
    cases hc : c.wireOrder <;> simp [streamBytes, pixelByte, e0, e1]

/-- The acceptance of a pending request is the step of an idle, unhalted block with no turn listed. -/
theorem step_accept {s : State} {r : Request} (hs : s.script = []) (hw : s.wait = .none) (hh : s.halted = false)
    (hr : s.req = some r) (ht : s.turns = []) : step s = accept r s := by
  rw [step, nextStep, ht]
  simp only [defaultTurn, seqEnabled_of_req hw hh hr, if_true, turn]
  exact seqTurn_of_req hw hh hs hr

end Sys2Proof.Machine
end

