-- ==== Sys2Proof/Tests/Slice0.lean ====
section
/-!
SUPPORT. Tests: the checks of WellFormed refuse ill-formed terms; words written out from the spec decode; single
steps against spec/95_test_vectors.md (called TV below); and, for every obligation with hypotheses, a concrete witness.
-/

namespace Sys2Proof.Tests

open Sys2Proof.Machine

/-! ### A small block -/

/-- Legal parameters with a buffer of 5 by 4 cells, every OPEN value chosen for the tests. -/
def tc : Config where
  width := 5
  height := 4
  colOffset := 2
  rowOffset := 1
  wireOrder := .lowFirst
  madctlValue := 0xC8
  colmodValue := 0x05
  opc := Config.defaultOpcodes
  durations := { tRstLow := 1, tRstSettle := 2, tSwreset := 2, tSlpout := 3, tDispon := 1 }
  rateSlow := 1
  rateFast := 2
  polarity := { csAssertedLow := true, dcCommandLow := true }

/-- The block right after reset. -/
def fresh : State := State.resetWith tc

/-- The block idle after BEGIN (TV 2.5), every cell 0xFFFF. -/
def act : State :=
  { fresh.withLines (activeLines .cmd) with fb := (List.range 20).map fun i => (i, 0xFFFF) }

/-- BEGIN with `k` micro-ops of its script performed. -/
def atBegin (k : Nat) (w : Wait) : State :=
  { fresh.withLines (linesAfter ((beginScript tc).take k) resetLines) with script := (beginScript tc).drop k, wait := w }

/-- DISPLAY with `k` micro-ops of its script performed. -/
def atDisplay (k : Nat) (w : Wait) : State :=
  { act.withLines (linesAfter ((displayScript tc).take k) (activeLines .cmd)) with
    script := (displayScript tc).drop k, wait := w }

/-- The cells of a frame buffer that hold a given pixel. -/
def cellsWith (p : Pixel) (fb : Fb) : List Nat := (fb.filter fun c => c.2 = p).map Prod.fst

/-- The frame buffer after a completed meaning. -/
def fbOf (o : Host.Outcome State Fault Refusal) : Fb :=
  match o with
  | .next t => t.fb
  | .fault _ => []
  | .refused _ => []

/-- STATUS after a completed step. -/
def statusOf (o : Host.Outcome State Fault Refusal) : Option (BitVec 16) :=
  match o with
  | .next t => some t.status
  | .fault _ => none
  | .refused _ => none

/-- The events a completed step emitted. -/
def emitted (o : Host.Outcome State Fault Refusal) : List Event :=
  match o with
  | .next t => t.trace
  | .fault _ => []
  | .refused _ => []

/-! ### WellFormed refuses -/

theorem test_wf_accepts : tc.wf = true := by decide
theorem test_wf_width_zero : Config.wf { tc with width := 0 } = false := by decide
theorem test_wf_height_zero : Config.wf { tc with height := 0 } = false := by decide
theorem test_wf_column_bound : Config.wf { tc with colOffset := 0xFFFF } = false := by decide
theorem test_wf_row_bound : Config.wf { tc with rowOffset := 0xFFFF } = false := by decide
theorem test_wf_opcodes_distinct : Config.wf { tc with opc := { tc.opc with caset := 0x2B } } = false := by decide
theorem test_wf_settle_longer : Config.wf { tc with durations := { tc.durations with tRstSettle := 1 } } = false := by
  decide
theorem test_wf_sleep_out_longest : Config.wf { tc with durations := { tc.durations with tDispon := 4 } } = false := by
  decide
theorem test_wf_rates : Config.wf { tc with rateFast := 1 } = false := by decide
theorem test_wf_madctl : Instr.wf tc (.madctl 0x00) = false := by decide
theorem test_wf_colmod : Instr.wf tc (.colmod 0x06) = false := by decide
theorem test_wf_invctr : Instr.wf tc (.invctr 0x01) = false := by decide
theorem test_wf_caset : Instr.wf tc (.caset 0 4) = false := by decide
theorem test_wf_raset : Instr.wf tc (.raset 1 5) = false := by decide
theorem test_wf_window : Instr.wf tc (.caset 2 6) = true ∧ Instr.wf tc (.raset 1 4) = true := by decide
theorem test_wf_source_wire : Source.wf (.core .ramwr) = false := by decide

/-! ### Decoding words written out from 30_encoding.md R71, R77 (a record's fields as log 3 lays them out,
a wire command's payload as log 25 does) -/

theorem test_decode_begin : decodeTableWord 8 0x01 = some .begin := by decide
theorem test_decode_display : decodeTableWord 8 0x02 = some .display := by decide
/-- RGB 0, PIX 0xE0FF, Ht, Wd, Y, X 0, OP 3. -/
theorem test_decode_clear :
    decodeTableWord 184 0x00000000_E0FF_00000000_00000000_00000000_00000000_03 = some (.clear 0xE0FF) := by decide
/-- PIX 0x1FF8, Y 2, X 2, OP 4 (TV P3 request 5). -/
theorem test_decode_drawPoint :
    decodeTableWord 184 0x00000000_1FF8_00000000_00000000_00000002_00000002_04 = some (.drawPoint 2 2 0x1FF8) := by
  decide
/-- TV P3 request 8: X 126, Y -3, Wd 10, Ht 5. -/
theorem test_decode_drawRectOutline :
    decodeTableWord 184 0x00000000_0000_00000005_0000000A_FFFFFFFD_0000007E_05 =
      some (.drawRectOutline 126 (-3) 10 5 0) := by decide
/-- TV P3 request 3: X -5, Y -5, Wd 10, Ht 10, PIX 0xFF07. -/
theorem test_decode_fillRect :
    decodeTableWord 184 0x00000000_FF07_0000000A_0000000A_FFFFFFFB_FFFFFFFB_06 =
      some (.fillRect (-5) (-5) 10 10 0xFF07) := by decide
/-- TV P3 request 1. -/
theorem test_decode_encode :
    decodeTableWord 184 0x000000FF_0000_00000000_00000000_00000000_00000000_07 = some (.encode 0x0000FF) := by decide
/-- 0x01 alone is BEGIN in a table word (log 2); on the wire it is SWRESET. -/
theorem test_decode_swreset : decodeWire tc [0x01] = .ok .swreset := by decide
theorem test_decode_slpout : decodeTableWord 8 0x11 = some .slpout := by decide
theorem test_decode_madctl : decodeTableWord 16 0xC836 = some (.madctl 0xC8) := by decide
theorem test_decode_colmod : decodeTableWord 16 0x053A = some (.colmod 0x05) := by decide
theorem test_decode_invctr : decodeTableWord 16 0x00B4 = some (.invctr 0x00) := by decide
theorem test_decode_dispon : decodeTableWord 8 0x29 = some .dispon := by decide
/-- TV 2.4: W 128, COL_OFFSET 2: payload 00 02 00 81. -/
theorem test_decode_caset : decodeTableWord 40 0x81_00_02_00_2A = some (.caset 0x0002 0x0081) := by decide
/-- TV 2.4: H 160, ROW_OFFSET 1: payload 00 01 00 A0. -/
theorem test_decode_raset : decodeTableWord 40 0xA0_00_01_00_2B = some (.raset 0x0001 0x00A0) := by decide
theorem test_decode_ramwr : decodeTableWord 8 0x2C = some .ramwr := by decide
theorem test_decode_illegal : decodeRequest { op := 0x08 } = .error (.illegalRequest 0x08) := by decide
theorem test_decode_illegal_zero : decodeRequest { op := 0x00 } = .error (.illegalRequest 0x00) := by decide
theorem test_decode_unknown_opcode : decodeWire tc [0x00] = .error (.unknownOpcode 0x00) := by decide
theorem test_decode_payload_length : decodeWire tc [0x36] = .error (.payloadLength 0x36 0) := by decide
theorem test_decode_no_bytes : decodeWire tc [] = .error .emptyCommand := by decide
theorem test_decode_record_length : decodeRecordBytes [0x01] = .error (.recordLength 1) := by decide

/-! ### The window bounds (TV 2.4) and the bytes of a pixel (TV 2.4) -/

theorem test_window_320 : windowPayload (Config.colStart { tc with width := 320, colOffset := 0 })
    (Config.colEnd { tc with width := 320, colOffset := 0 }) = [0x00, 0x00, 0x01, 0x3F] := by decide
theorem test_window_160 : windowPayload (Config.rowStart { tc with height := 160 })
    (Config.rowEnd { tc with height := 160 }) = [0x00, 0x01, 0x00, 0xA0] := by decide
theorem test_stream_low_first : streamBytes .lowFirst [0xE0FF, 0x1FF8] = [0xFF, 0xE0, 0xF8, 0x1F] := by decide
theorem test_stream_high_first : streamBytes .highFirst [0xE0FF, 0x1FF8] = [0xE0, 0xFF, 0x1F, 0xF8] := by decide

/-! ### The codec (TV 2.1) -/

theorem test_encode : encodeRgb 0xFF0000 = 0xE0FF ∧ encodeRgb 0x00FF00 = 0x1FF8 ∧ encodeRgb 0x0000FF = 0xFF07 ∧
    encodeRgb 0x123456 = 0x5DAE ∧ encodeRgb 0x080408 = 0xDEF7 ∧ encodeRgb 0xFF000000 = 0xFFFF := by decide
theorem test_pack_and_decode : packBgr565 0x123456 = 0x51A2 ∧ decodePix 0x5DAE = 0x103450 ∧ pixBlack = 0xFFFF := by decide

/-! ### The frame-buffer requests -/

theorem test_clear : fbOf (exec (.clear 0xE0FF) { fresh with phase := .active }) =
    (List.range 20).map fun i => (i, 0xE0FF) := by decide
/-- TV 2.2: DRAW_POINT 3, 2 writes cell 259 of the 128 by 128 buffer. -/
theorem test_drawPoint : fbOf (exec (.drawPoint 3 2 7) { fresh with cfg := Config.default, phase := .active }) =
    [(259, 7)] := by decide
/-- TV 2.2: DRAW_POINT 128, 0 is not cell 128. -/
theorem test_drawPoint_right : fbOf (exec (.drawPoint 128 0 7) { fresh with cfg := Config.default, phase := .active }) =
    [] := by decide
/-- TV 2.3 on rows of 5 cells: row 1, 1, 3, 3 (all of the block but its middle) and row -1, -1, 3, 3 (the bottom-right arm
of the border only). -/
theorem test_outline : cellsWith 0 (fbOf (exec (.drawRectOutline 1 1 3 3 0) act)) = [6, 7, 8, 11, 13, 16, 17, 18] ∧
    cellsWith 0 (fbOf (exec (.drawRectOutline (-1) (-1) 3 3 0) act)) = [1, 5, 6] := by decide
/-- TV 2.3, row -5, -5, 10, 10 of the 128 by 128 buffer, and row 2147483647, 0, 1, 1 with TV 2.7: STATUS 0x011E. -/
theorem test_outline_ends : inOutline Config.default (-5) (-5) 10 10 4 0 = true ∧
    inOutline Config.default (-5) (-5) 10 10 0 4 = true ∧ inOutline Config.default (-5) (-5) 10 10 3 3 = false ∧
    inOutline Config.default (-5) (-5) 10 10 5 4 = false ∧
    statusOf (exec (.drawRectOutline 2147483647 0 1 1 0) act) = some 0x011E := by decide
/-- TV 2.3, row -1, -1, 3, 3; and row 0, 0, -2147483648, 1: no fault, no write. -/
theorem test_fill : cellsWith 0 (fbOf (exec (.fillRect (-1) (-1) 3 3 0) act)) = [0, 1, 5, 6] ∧
    fbOf (exec (.fillRect 0 0 (-2147483648) 1 0) act) = act.fb ∧
    statusOf (exec (.fillRect 0 0 (-2147483648) 1 0) act) = some 0x000E := by decide
/-- TV 2.3, rows -5, -5, 10, 10 and 127, 127, 5, 5, and row 1, 0, 2147483647, 1 with TV 2.7: STATUS 0x011E. -/
theorem test_fill_ends : inFill Config.default (-5) (-5) 10 10 4 4 = true ∧
    inFill Config.default (-5) (-5) 10 10 5 4 = false ∧ inFill Config.default 127 127 5 5 127 127 = true ∧
    statusOf (exec (.fillRect 1 0 2147483647 1 0) act) = some 0x011E := by decide

/-! ### STATUS (TV 2.5, 2.7) and the faults -/

theorem test_status_reset : fresh.status = 0x0000 := by decide
theorem test_status_loaded : statusOf (exec .begin fresh) = some 0x0001 := by decide
theorem test_status_in_begin : (atBegin 1 .none).status = 0x0003 ∧ (atBegin 6 .none).status = 0x0005 ∧
    (atBegin 40 .none).status = 0x000D ∧ (atBegin 41 .none).status = 0x000F ∧ act.status = 0x000E := by decide
theorem test_display_before_begin : statusOf (exec .display fresh) = some 0x0050 := by decide
theorem test_draw_before_begin : statusOf (exec (.drawPoint 0 0 0) fresh) = some 0x0050 := by decide
theorem test_begin_repeated : statusOf (exec .begin act) = some 0x009E := by decide
/-- TV 2.7, last row: decode comes before the range check. -/
theorem test_illegal_first :
    statusOf (step { fresh with req := some { op := 0x09, x := 1, wd := 0x7FFFFFFF } }) = some 0x0030 := by decide
theorem test_illegal_after_begin : statusOf (step { act with req := some { op := 0x08 } }) = some 0x003E := by decide
/-- R229: a halted block leaves a pending request pending. -/
theorem test_halted : step { fresh with fault := { useBeforeBegin := true }, req := some { op := 0x01 }, turns := [.seq] } =
    .next { fresh with fault := { useBeforeBegin := true }, req := some { op := 0x01 } } := rfl

/-! ### Scripts, the wire commands and the trace -/

theorem test_begin_length : (beginScript Config.default).length = 42 := by decide
theorem test_begin_commands : opcodesOf (traceOf .slow (beginTrace tc)) = [0x01, 0x11, 0x36, 0x3A, 0xB4, 0x29] := by
  decide
theorem test_display_length : (displayScript tc).length = 65 := by decide
/-- TV 2.4, in the order of R160. -/
theorem test_frame_madctl : wireFrame tc (.madctl 0xC8) =
    [.setCs .asserted, .setDc .cmd, .tx 0x36, .setDc .data, .tx 0xC8, .setCs .released] := by decide
theorem test_frame_ramwr : wireFrame tc .ramwr = [.setCs .asserted, .setDc .cmd, .tx 0x2C, .setCs .released] := by
  decide
/-- TV 2.4: the first event of a software reset, and its opcode byte two micro-ops later. -/
theorem test_swreset_begins : emitted (exec .swreset (atBegin 6 .none)) = [.cs .asserted] := by decide
theorem test_swreset_byte : emitted (step (atBegin 8 .none)) = [.byte 0x01 (.driven .cmd) .slow] := by decide
/-- TV 2.6: the window's last byte, end column 2 + 5 - 1, in data mode and fast. -/
theorem test_caset_last_byte : emitted (step (atDisplay 7 .none)) = [.byte 0x06 (.driven .data) .fast] := by decide
theorem test_fetch : (fetchWire tc (atDisplay 9 .none).script).map Prod.fst = some (.raset 0x0001 0x0004) := by decide
/-- The stream's bytes 2 and 3 are cell 1's, low first. -/
theorem test_stream_byte : emitted (step { atDisplay 26 .none with fb := [(0, 0x1234), (1, 0xE0FF)] }) =
    [.byte 0xFF (.driven .data) .fast] := by decide
theorem test_stream_no_value : step { atDisplay 26 .none with fb := [] } = .fault (.fbNoValue 1) := rfl
theorem test_read_trace : readTrace (traceOf .fast [.rate .fast, .cmd 0x2C [], .stream [1, 2]]) =
    [.command 0x2C [], .data [1, 2]] := by decide
theorem test_xport : step { atBegin 9 .tx with turns := [.xport] } = .next (atBegin 9 .none) := rfl
theorem test_timer : step { atBegin 3 (.delay .rstLow) with turns := [.timer] } = .next (atBegin 3 .none) := rfl
/-- R29, U6: no value is there to read, and LCDB goes on. -/
theorem test_reads_no_result : hostRead .rPix fresh = none ∧ step { fresh with turns := [.hostReads .rPix] } = .next fresh :=
  ⟨rfl, rfl⟩
theorem test_reads_result : hostRead .rPix { fresh with rPix := some 0xE0FF } = some 0xE0FF := by decide
/-- R26 with the default polarity: chip-select and command mode are low levels. -/
theorem test_pins : (atBegin 8 .none).csPin = .low ∧ (atBegin 8 .none).dcPin = some .low ∧
    (atBegin 8 .none).rstPin = some .high ∧ fresh.csPin = .high ∧ fresh.dcPin = none := by decide

/-! ### Request lines (30_encoding.md R74, R75) -/

theorem test_text_fill : parseLine "FILL_RECT -5, -5, 10, 10, 0xFF07".toList =
    some (.core (.fillRect (-5) (-5) 10 10 0xFF07)) := by decide
theorem test_text_clear : parseLine "CLEAR".toList = some .clearDefault := by decide
theorem test_text_range : parseLine "DRAW_POINT 2147483648, 0, 0".toList = none := by decide
theorem test_text_wire : parseLine "RAMWR".toList = none := by decide
theorem test_expand_update : Source.record tc .update = some { op := 0x02 } := by decide
theorem test_expand_fill : Source.record tc (.fillScreen 7) = some { op := 0x06, wd := 5, ht := 4, pix := 7 } := by
  decide

/-! ### Placing a word -/

theorem test_place_request : statusOf (step (State.reset.withFetchWord 8 0x02)) = some 0x0050 := by decide
theorem test_place_wire : emitted (step (State.reset.withFetchWord 16 0x05_3A)) = [.cs .asserted] := by decide
theorem test_place_encode :
    (match step (State.reset.withFetchWord 184 0x00FF0000_0000_00000000_00000000_00000000_00000000_07) with
      | .next t => t.rPix
      | .fault _ => none
      | .refused _ => none) = some 0xE0FF := by decide

/-! ### Witnesses: states and operands that meet all the hypotheses of each obligation -/

/-- A step from the state completes. -/
def completes (s : State) : Prop := ∃ t, step s = .next t

theorem full_act : FbFull act := by
  intro i hi
  have h : ∀ i, i < 20 → (act.cell i).isSome = true := by decide
  exact h i hi

theorem inv_fresh : Inv fresh := ⟨by decide, rfl, by decide, .inl ⟨rfl, rfl, rfl, rfl, rfl⟩⟩

theorem inv_act : Inv act :=
  ⟨by decide, by decide, by decide, .inr (.inr (.inl ⟨rfl, rfl, ⟨.cmd, rfl⟩, full_act⟩))⟩

/-- BEGIN at any of its points meets the invariant, the wait being over or the last micro-op's. -/
theorem beginning_atBegin {k : Nat} {w : Wait} (hk : (beginScript tc).drop k ≠ [])
    (hw : WaitFits ((beginScript tc).take k) w) : Beginning (atBegin k w) :=
  ⟨rfl, hk, rfl, _, (List.take_append_drop k (beginScript tc)).symm, rfl, hw⟩

theorem inv_atBegin {k : Nat} {w : Wait} (hk : (beginScript tc).drop k ≠ [])
    (hw : WaitFits ((beginScript tc).take k) w) : Inv (atBegin k w) :=
  ⟨(by decide : tc.wf = true), rfl, (by decide : FaultSet.count {} ≤ 1), .inr (.inl (beginning_atBegin hk hw))⟩

/-- DISPLAY at any of its points meets the invariant. -/
theorem inv_atDisplay {k : Nat} {w : Wait} (hk : (displayScript tc).drop k ≠ [])
    (hw : WaitFits ((displayScript tc).take k) w) : Inv (atDisplay k w) :=
  ⟨(by decide : tc.wf = true), (by decide : Fb.wf 20 act.fb = true), (by decide : FaultSet.count {} ≤ 1),
    .inr (.inr (.inr ⟨rfl, hk, full_act, _, .cmd, (List.take_append_drop k (displayScript tc)).symm, rfl, hw⟩))⟩

theorem witness_BlockResetInstallsTheResetTable :
    { atDisplay 26 .tx with turns := [Turn.blockReset] }.turns = .blockReset :: [] := rfl

theorem witness_BlockResetKeepsWhatIsNotLcdbs :
    ∃ t, step { act with turns := [.blockReset, .seq], host := [{ op := 0x01 }] } = .next t := ⟨_, rfl⟩

theorem witness_InvariantHoldsAfterReset : tc.wf = true := by decide

/-- The four situations, a step from each. -/
theorem witness_EveryStepKeepsTheInvariant :
    (Inv fresh ∧ completes fresh) ∧ (Inv (atBegin 41 .none) ∧ completes (atBegin 41 .none)) ∧
    (Inv act ∧ completes act) ∧ (Inv (atDisplay 64 .none) ∧ completes (atDisplay 64 .none)) :=
  ⟨⟨inv_fresh, _, rfl⟩, ⟨inv_atBegin (by decide) (.inl rfl), _, rfl⟩, ⟨inv_act, _, rfl⟩,
    ⟨inv_atDisplay (by decide) (.inl rfl), _, rfl⟩⟩

theorem witness_IdleMeansUninitOrActiveAndFull :
    (Inv fresh ∧ fresh.busy = false) ∧ (Inv act ∧ act.busy = false ∧ act.phase = .active ∧ 19 < act.cfg.cells) ∧
    Inv (atBegin 1 .none) ∧ (atBegin 1 .none).phase = .reset ∧ Inv (atBegin 40 .none) ∧ (atBegin 40 .none).phase = .config :=
  ⟨⟨inv_fresh, rfl⟩, ⟨inv_act, rfl, rfl, by decide⟩, inv_atBegin (by decide) (.inl rfl), rfl,
    inv_atBegin (by decide) (.inl rfl), rfl⟩

/-- The first byte of BEGIN and the last of DISPLAY. -/
theorem witness_BytesLeaveOnlyInsideATransactionAtTheRightRate :
    (Inv (atBegin 8 .none) ∧ ∃ t, step (atBegin 8 .none) = .next t ∧
      t.traceRev = .byte 0x01 (.driven .cmd) .slow :: (atBegin 8 .none).traceRev) ∧
    (Inv (atDisplay 63 .none) ∧ ∃ t, step (atDisplay 63 .none) = .next t ∧
      t.traceRev = .byte 0xFF (.driven .data) .fast :: (atDisplay 63 .none).traceRev) :=
  ⟨⟨inv_atBegin (by decide) (.inl rfl), _, rfl, rfl⟩, ⟨inv_atDisplay (by decide) (.inl rfl), _, rfl, rfl⟩⟩

theorem witness_ChipSelectIsReleasedDuringDelays :
    (Inv (atBegin 11 (.delay .swreset)) ∧ ∃ d, (atBegin 11 (.delay .swreset)).wait = .delay d) ∧
    (Inv (atBegin 5 .none) ∧ (atBegin 5 .none).phase = .reset) :=
  ⟨⟨inv_atBegin (by decide) (.inr ⟨.wait .swreset, rfl, rfl⟩), _, rfl⟩, inv_atBegin (by decide) (.inl rfl), rfl⟩

/-- The three moves of PHASE. -/
theorem witness_PhaseMovesStrictlyForwardInTheBeginScript :
    (Inv (atBegin 0 .none) ∧ NoReset (atBegin 0 .none) ∧ ∃ t, step (atBegin 0 .none) = .next t ∧
      (atBegin 0 .none).phase = .uninit ∧ t.phase = .reset) ∧
    (Inv (atBegin 5 .none) ∧ NoReset (atBegin 5 .none) ∧ ∃ t, step (atBegin 5 .none) = .next t ∧
      (atBegin 5 .none).phase = .reset ∧ t.phase = .config) ∧
    (Inv (atBegin 40 .none) ∧ NoReset (atBegin 40 .none) ∧ ∃ t, step (atBegin 40 .none) = .next t ∧
      (atBegin 40 .none).phase = .config ∧ t.phase = .active) :=
  ⟨⟨inv_atBegin (by decide) (.inl rfl), nofun, _, rfl, rfl, rfl⟩,
    ⟨inv_atBegin (by decide) (.inl rfl), nofun, _, rfl, rfl, rfl⟩,
    ⟨inv_atBegin (by decide) (.inl rfl), nofun, _, rfl, rfl, rfl⟩⟩

theorem witness_RateStepsUpOnceInConfig :
    Inv (atBegin 39 .none) ∧ NoReset (atBegin 39 .none) ∧ ∃ t, step (atBegin 39 .none) = .next t ∧
      t.rate ≠ (atBegin 39 .none).rate :=
  ⟨inv_atBegin (by decide) (.inl rfl), nofun, _, rfl, by decide⟩

/-- Under the invariant; and the two ways a step can stop outside it. -/
theorem witness_NoStepStopsUnderTheInvariant :
    (Inv fresh ∧ completes { fresh with turns := [.hostReads .rPix] }) ∧
    (step { atDisplay 63 .none with fb := [] } = .fault (.fbNoValue (39 >>> 1)) ∧
      ({ atDisplay 63 .none with fb := [] } : State).cell (39 >>> 1) = none) ∧
    step { act with script := [.txPix 40] } = .fault (.fbNoCell (40 >>> 1)) ∧ act.cfg.cells ≤ 40 >>> 1 :=
  ⟨⟨inv_fresh, _, rfl⟩, ⟨rfl, rfl⟩, rfl, by decide⟩

theorem witness_NoStepChangesTheParameters : completes { act with turns := [.blockReset] } := ⟨_, rfl⟩

theorem witness_DecodingAnEncodedInstructionGivesItBack : Config.default.opc.all.Nodup ∧ tc.opc.all.Nodup := by decide

/-- A record of each OP with every field set, and the ends of both illegal ranges. -/
theorem witness_ExactlySevenRequestCodesAreLegal :
    let r : Byte → Request := fun op => { op := op, x := 1, y := 2, wd := 3, ht := 4, pix := 5, rgb := 6 }
    decodeRequest (r 0x01) = .ok .begin ∧ decodeRequest (r 0x02) = .ok .display ∧
    decodeRequest (r 0x03) = .ok (.clear 5) ∧ decodeRequest (r 0x04) = .ok (.drawPoint 1 2 5) ∧
    decodeRequest (r 0x05) = .ok (.drawRectOutline 1 2 3 4 5) ∧ decodeRequest (r 0x06) = .ok (.fillRect 1 2 3 4 5) ∧
    decodeRequest (r 0x07) = .ok (.encode 6) ∧ (r 0x00).op.toNat = 0 ∧ 8 ≤ (r 0x08).op.toNat ∧
    8 ≤ (r 0xFF).op.toNat := by decide

/-- An opcode of none, and for each payload length one that fits, one too short and one too long. -/
theorem witness_TheWireDecoderRefusesOtherOpcodesAndLengths :
    tc.opc.all.Nodup ∧ 0x00 ∉ tc.opc.all ∧ 0xFF ∉ tc.opc.all ∧
    decodeWire tc [0x2C] = .ok .ramwr ∧ decodeWire tc [0x2C, 0] = .error (.payloadLength 0x2C 1) ∧
    decodeWire tc [0x36, 0] = .ok (.madctl 0) ∧ decodeWire tc [0x36] = .error (.payloadLength 0x36 0) ∧
    decodeWire tc [0x36, 0, 0] = .error (.payloadLength 0x36 2) ∧ decodeWire tc [0x2A, 0, 2, 0, 6] = .ok (.caset 2 6) ∧
    decodeWire tc [0x2A, 0, 2, 0] = .error (.payloadLength 0x2A 3) ∧
    decodeWire tc [0x2A, 0, 2, 0, 6, 0] = .error (.payloadLength 0x2A 5) := by decide

/-- No turn listed, and SEQ's turn listed. -/
theorem witness_StepRunsTheDecodedRequest :
    SeqMoves { act with req := some { op := 0x02 } } [] ∧
    SeqMoves { act with req := some { op := 0x02 }, turns := [.seq, .timer] } [.timer] ∧
    act.wait = .none ∧ act.halted = false ∧ act.script = [] ∧ decodeRequest { op := 0x02 } = .ok .display :=
  ⟨.inr ⟨rfl, rfl⟩, .inl rfl, rfl, rfl, rfl, rfl⟩

theorem witness_StepRunsTheDecodedWireCommand :
    (atDisplay 0 .none).cfg.opc.all.Nodup ∧ SeqMoves (atDisplay 0 .none) [] ∧ (atDisplay 0 .none).wait = .none ∧
    (atDisplay 0 .none).halted = false ∧ (Instr.caset 2 6).isWire = true ∧
    ∃ rest, (atDisplay 0 .none).script = wireFrame tc (.caset 2 6) ++ rest :=
  ⟨by decide, .inr ⟨rfl, rfl⟩, rfl, rfl, rfl, _, rfl⟩

/-- An enabled script step; one held by a wait; one held by a fault. -/
theorem witness_ScriptStepPerformsTheHeadMicroOp :
    ((atBegin 0 .none).script = .setPhase .reset :: (beginScript tc).drop 1 ∧ (atBegin 0 .none).wait = .none ∧
      (atBegin 0 .none).halted = false ∧ SeqMoves (atBegin 0 .none) []) ∧
    ((atBegin 9 .tx).script = .setCs .released :: (beginScript tc).drop 10 ∧ (atBegin 9 .tx).wait ≠ .none ∧
      { atBegin 9 .tx with turns := [Turn.seq] }.turns = .seq :: []) ∧
    { atBegin 9 .none with fault := FaultSet.insert .coordOverflow {} }.halted = true :=
  ⟨⟨rfl, rfl, rfl, .inr ⟨rfl, rfl⟩⟩, ⟨rfl, by decide, rfl⟩, rfl⟩

/-- An acceptance, and HOST's turn into an empty port (the block waiting), into a full one, and with no request left. -/
theorem witness_APendingRequestIsHeldUntilAccepted :
    (NoReset { act with req := some { op := 0x07 } } ∧
      ∃ t, step { act with req := some { op := 0x07 } } = .next t ∧ t.req = none) ∧
    step { atBegin 9 .tx with host := [{ op := 0x04, x := 7 }], turns := [.hostPresents] } =
      .next { atBegin 9 .tx with req := some { op := 0x04, x := 7 } } ∧
    step { atBegin 9 .tx with req := some { op := 0x07 }, host := [{ op := 0x04 }], turns := [.hostPresents] } =
      .next { atBegin 9 .tx with req := some { op := 0x07 }, host := [{ op := 0x04 }] } ∧
    step { act with turns := [.hostPresents] } = .next act :=
  ⟨⟨nofun, _, rfl, rfl⟩, rfl, rfl, rfl⟩

/-- An ENCODE accepted, the two ends of a wait (listed, and by default), and a micro-op that begins one. -/
theorem witness_OnlyEncodeWritesRPixAndOnlyTheirAgentsEndWaits :
    (NoReset { act with req := some { op := 0x07 } } ∧
      ∃ t, step { act with req := some { op := 0x07 } } = .next t ∧ t.rPix ≠ act.rPix) ∧
    (NoReset { atBegin 9 .tx with turns := [.xport] } ∧
      ∃ t, step { atBegin 9 .tx with turns := [.xport] } = .next t ∧ t.wait ≠ .tx) ∧
    (NoReset (atBegin 3 (.delay .rstLow)) ∧
      ∃ t, step (atBegin 3 (.delay .rstLow)) = .next t ∧ t.wait ≠ .delay .rstLow) ∧
    (atBegin 8 .none).wait = .none ∧ ∃ t, step (atBegin 8 .none) = .next t ∧ t.wait ≠ .none :=
  ⟨⟨nofun, _, rfl, by decide⟩, ⟨nofun, _, rfl, by decide⟩, ⟨nofun, _, rfl, by decide⟩, rfl, _, rfl, by decide⟩

/-- A drawing request and an illegal one. -/
theorem witness_OtherRequestsCompleteInTheirAcceptingStep :
    SeqMoves { act with req := some { op := 0x03 } } [] ∧ act.wait = .none ∧ act.halted = false ∧ act.script = [] ∧
    (0x03 : Byte) ≠ 0x01 ∧ (0x03 : Byte) ≠ 0x02 ∧ (0x00 : Byte) ≠ 0x01 ∧ (0x00 : Byte) ≠ 0x02 :=
  ⟨.inr ⟨rfl, rfl⟩, rfl, rfl, rfl, by decide⟩

theorem witness_TraceIsAppendOnly : completes (atBegin 8 .none) ∧ completes { act with turns := [.blockReset] } :=
  ⟨⟨_, rfl⟩, _, rfl⟩

theorem witness_ClearFbMicroOpWritesEveryCell :
    Fb.wf (atBegin 41 .none).cfg.cells (atBegin 41 .none).fb = true ∧ .clearFb 0xFFFF ∈ beginScript tc := by decide

/-- The first and the last stream byte under either order, and a cell without a value. -/
theorem witness_StreamByteIsTheCellsByte :
    (0 < 2 * act.cfg.cells ∧ act.cell (0 >>> 1) = some 0xFFFF) ∧ (39 < 2 * act.cfg.cells ∧ act.cell (39 >>> 1) = some 0xFFFF) ∧
    act.cfg.wireOrder = .lowFirst ∧ ({ act with cfg := { tc with wireOrder := .highFirst } } : State).cfg.wireOrder = .highFirst ∧
    emitted (microOp (.txPix 39) { act with cfg := { tc with wireOrder := .highFirst }, fb := [(19, 0xE0FF)] }) =
      [.byte 0xFF (.driven .cmd) .fast] ∧
    fresh.cell (39 >>> 1) = none := by decide

theorem witness_XportCompletesOrSeqHangs :
    { atBegin 9 .tx with turns := [Turn.xport] }.turns = .xport :: [] ∧
    { atBegin 9 .tx with xportReady := false }.wait = .tx ∧ (atBegin 9 .tx).turns = [] ∧
    { atBegin 9 .tx with xportReady := false }.xportReady = false := ⟨rfl, rfl, rfl, rfl⟩

theorem witness_TimerExpiresOrSeqHangs :
    { atBegin 3 (.delay .rstLow) with turns := [Turn.timer] }.turns = .timer :: [] ∧
    { atBegin 3 (.delay .rstLow) with timerReady := false }.wait = .delay .rstLow ∧
    (atBegin 3 (.delay .rstLow)).turns = [] ∧
    { atBegin 3 (.delay .rstLow) with timerReady := false }.timerReady = false := ⟨rfl, rfl, rfl, rfl⟩

theorem witness_HostReadsHaveNoSideEffect :
    { fresh with turns := [Turn.hostReads .status] }.turns = .hostReads .status :: [] ∧
    { fresh with turns := [Turn.hostReads .rPix] }.turns = .hostReads .rPix :: [] ∧
    { fresh with rPix := some 0xE0FF }.rPix = some 0xE0FF ∧ fresh.rPix = none := ⟨rfl, rfl, rfl, rfl⟩

theorem witness_ClearSetsEveryCell :
    act.phase ≠ .uninit ∧ Fb.wf act.cfg.cells act.fb = true ∧ 19 < act.cfg.cells ∧ act.cfg.cells ≤ 20 := by decide

/-- The corner (4, 3), and one step outside each of the four sides. -/
theorem witness_DrawPointWritesItsCellIffInBounds :
    (act.phase ≠ .uninit ∧ Fb.wf act.cfg.cells act.fb = true) ∧
    (0 ≤ (4 : Coord).toInt ∧ (4 : Coord).toInt < act.cfg.width ∧ 0 ≤ (3 : Coord).toInt ∧ (3 : Coord).toInt < act.cfg.height) ∧
    (-1 : Coord).toInt < 0 ∧ (act.cfg.width : Int) ≤ (5 : Coord).toInt ∧ (act.cfg.height : Int) ≤ (4 : Coord).toInt := by
  decide

/-- Sums at both ends of s32. -/
theorem witness_DrawRectOutlineWritesTheInBoundsBorder :
    (act.phase ≠ .uninit ∧ Fb.wf act.cfg.cells act.fb = true) ∧
    (0 : Coord).toInt + (0x7FFFFFFF : Coord).toInt = 2 ^ 31 - 1 ∧ (0 : Coord).toInt + (0x80000000 : Coord).toInt = -2 ^ 31 := by
  decide

theorem witness_FillRectWritesTheClippedRectangle :
    (act.phase ≠ .uninit ∧ Fb.wf act.cfg.cells act.fb = true) ∧
    -2 ^ 31 ≤ (-1 : Coord).toInt + (3 : Coord).toInt ∧ (-1 : Coord).toInt + (3 : Coord).toInt ≤ 2 ^ 31 - 1 ∧
    (0 : Coord).toInt + (0x7FFFFFFF : Coord).toInt = 2 ^ 31 - 1 := by
  decide

/-- The boundary value of each of the six cases. -/
theorem witness_RectanglesOutsideTheBufferChangeNothing :
    (act.phase ≠ .uninit ∧ Fb.wf act.cfg.cells act.fb = true) ∧ (0 : Coord).toInt ≤ 0 ∧
    (act.cfg.width : Int) ≤ (5 : Coord).toInt ∧ (act.cfg.height : Int) ≤ (4 : Coord).toInt ∧
    (-10 : Coord).toInt + (10 : Coord).toInt ≤ 0 ∧ -2 ^ 31 ≤ (-10 : Coord).toInt + (10 : Coord).toInt := by decide

theorem witness_FillingTheWholeBufferIsClear : act.phase ≠ .uninit ∧ act.cfg.wf = true := by decide

/-- A drawing request, and CLEAR_FB. -/
theorem witness_FrameBufferChangesOnlyByDrawingOrClearing :
    (NoReset { act with req := some { op := 0x03 } } ∧
      ∃ t, step { act with req := some { op := 0x03 } } = .next t ∧ t.fb ≠ act.fb) ∧
    NoReset (atBegin 41 .none) ∧ ∃ t, step (atBegin 41 .none) = .next t ∧ t.fb ≠ (atBegin 41 .none).fb :=
  ⟨⟨nofun, _, rfl, by decide⟩, nofun, _, rfl, by decide⟩

theorem witness_UseBeforeBeginIsEntered : fresh.phase = .uninit := rfl

theorem witness_SecondBeginEntersBeginRepeated :
    act.phase ≠ .uninit ∧ (atBegin 1 .none).phase ≠ .uninit ∧ (atBegin 6 .none).phase ≠ .uninit := by decide

/-- 0x00, and the first and last OP above the seven. -/
theorem witness_IllegalRequestIsEntered :
    SeqMoves { fresh with req := some { op := 0x08 } } [] ∧ fresh.wait = .none ∧ fresh.halted = false ∧
    fresh.script = [] ∧ 0x08 ≤ (0x08 : Byte).toNat ∧ 0x08 ≤ (0xFF : Byte).toNat :=
  ⟨.inr ⟨rfl, rfl⟩, rfl, rfl, rfl, by decide⟩

/-- The first sums outside s32 at either end. -/
theorem witness_CoordOverflowIsEntered :
    act.phase ≠ .uninit ∧ 2 ^ 31 ≤ (1 : Coord).toInt + (0x7FFFFFFF : Coord).toInt ∧
    (-1 : Coord).toInt + (0x80000000 : Coord).toInt < -2 ^ 31 := by decide

theorem witness_FaultEntryIsPrecise :
    NoReset { fresh with req := some { op := 0x02 } } ∧
    ∃ t, step { fresh with req := some { op := 0x02 } } = .next t ∧ t.fault ≠ fresh.fault :=
  ⟨nofun, _, rfl, by decide⟩

/-- Halted and idle with a request pending, and halted with none. -/
theorem witness_HaltedBlockIsQuiescent :
    let s : State := { fresh with fault := { illegalRequest := true }, req := some { op := 0x01 } }
    s.halted = true ∧ NoReset s ∧ completes s ∧ s.req = some { op := 0x01 } :=
  ⟨rfl, nofun, ⟨_, rfl⟩, rfl⟩

theorem witness_CommandsWithoutPayloadBeginTheirFrame :
    (Instr.ramwr, tc.opc.ramwr) ∈ [(Instr.swreset, tc.opc.swreset), (.slpout, tc.opc.slpout),
      (.dispon, tc.opc.dispon), (.ramwr, tc.opc.ramwr)] := by decide

theorem witness_OneByteCommandsBeginTheirFrame :
    (Instr.invctr 0, tc.opc.invctr) ∈ [(Instr.madctl 0, tc.opc.madctl), (.colmod 0, tc.opc.colmod),
      (.invctr 0, tc.opc.invctr)] := by decide

theorem witness_WindowCommandsBeginTheirFrame :
    (Instr.raset 1 4, tc.opc.raset) ∈ [(Instr.caset 1 4, tc.opc.caset), (.raset 1 4, tc.opc.raset)] := by decide

/-- A command with payload and one without. -/
theorem witness_AWireCommandRunsToItsWholeFrame :
    ((Instr.caset 2 6).isWire = true ∧ encode tc (.caset 2 6) = .command (0x2A :: [0, 2, 0, 6]) ∧
      ∃ rest, (atDisplay 0 .none).script = wireFrame tc (.caset 2 6) ++ rest) ∧
    (encode tc .ramwr = .command (0x2C :: []) ∧ ∃ rest, (atDisplay 18 .none).script = wireFrame tc .ramwr ++ rest) ∧
    (atDisplay 0 .none).wait = .none ∧ (atDisplay 0 .none).halted = false ∧ (atDisplay 0 .none).turns = [] ∧
    XportFair (atDisplay 0 .none) :=
  ⟨⟨rfl, rfl, _, rfl⟩, ⟨rfl, _, rfl⟩, rfl, rfl, rfl, rfl⟩

theorem witness_BeginLoadsItsScript : fresh.phase = .uninit := rfl

theorem witness_DisplayLoadsItsScript : act.phase ≠ .uninit ∧ act.cfg.wf = true := by decide

theorem witness_BeginEmitsItsWholeTraceAndEndsActive :
    let s : State := { fresh with req := some { op := 0x01 } }
    s.phase = .uninit ∧ s.rate = .slow ∧ s.script = [] ∧ s.wait = .none ∧ s.halted = false ∧
    s.req = some { op := 0x01 } ∧ s.turns = [] ∧ XportFair s ∧ TimerFair s ∧ Fb.wf s.cfg.cells s.fb = true :=
  ⟨rfl, rfl, rfl, rfl, rfl, rfl, rfl, rfl, rfl, rfl⟩

theorem witness_DisplaySendsTheWholeFrameBuffer :
    let s : State := { act with req := some { op := 0x02 } }
    (s.phase ≠ .uninit ∧ s.script = [] ∧ s.wait = .none ∧ s.halted = false ∧ s.req = some { op := 0x02 } ∧ s.turns = []) ∧
    XportFair s ∧ (List.replicate 20 (0xFFFF : Pixel)).length = s.cfg.cells ∧
    ∀ i, i < 20 → s.cell i = (List.replicate 20 (0xFFFF : Pixel))[i]? :=
  ⟨by decide, rfl, rfl, by decide⟩

theorem witness_FillThenDisplayStreamsTheEncodedColour :
    act.phase ≠ .uninit ∧ act.cfg.wf = true ∧ Fb.wf act.cfg.cells act.fb = true ∧
    (∃ s', exec (.fillRect 0 0 5 4 (encodeRgb 0xFF0000)) act = .next s') ∧ act.script = [] ∧ act.wait = .none ∧
    act.halted = false ∧ act.turns = [] ∧ XportFair act :=
  ⟨by decide, by decide, by decide, ⟨_, rfl⟩, rfl, rfl, rfl, rfl, rfl⟩

/-- In ACTIVE one request of each kind left; in UNINIT an ENCODE, BEGIN and a rectangle whose sum is the last in s32; and
in UNINIT an ENCODE alone. -/
theorem witness_LegalHostSequencesComeToAGoodEnd :
    let post : List Request := [{ op := 0x02 }, { op := 0x06, x := 1, wd := 0x7FFFFFFE }, { op := 0x07 }]
    let s : State := { act with host := post }
    let u : State := { fresh with host := { op := 0x07 } :: { op := 0x01 } :: post }
    (Inv s ∧ s.phase = .active ∧ s.busy = false ∧ s.halted = false ∧ s.req = none ∧ s.turns = [] ∧ XportFair s ∧ TimerFair s) ∧
    (Inv u ∧ u.phase = .uninit ∧ u.busy = false ∧ u.halted = false ∧ u.req = none ∧ u.turns = [] ∧ XportFair u ∧ TimerFair u) ∧
    u.host = [{ op := 0x07 }] ++ { op := 0x01 } :: post ∧
    (∀ r, r ∈ ([{ op := 0x07 }] : List Request) → r.op = 0x07) ∧ ∀ r, r ∈ post → LegalWhenActive r := by
  refine ⟨⟨inv_act, rfl, rfl, rfl, rfl, rfl, rfl, rfl⟩, ⟨inv_fresh, rfl, rfl, rfl, rfl, rfl, rfl, rfl⟩, rfl, by decide, ?_⟩
  simp only [LegalWhenActive]
  decide

theorem witness_ReadingATraceGivesBackItsTransactions :
    TraceLine.stream [] ∉ displayTrace tc [0xFFFF] := by decide

end Sys2Proof.Tests
end

/-! ## The state: reset values, STATUS and the situations of the invariant (10_state.md) -/

namespace Sys2Proof.Machine

/-! ### BUSY and the halted condition -/

theorem busy_eq_true_iff (s : State) : s.busy = true ↔ s.script ≠ [] ∨ s.wait ≠ .none := by
  simp [State.busy]

/-- `FAULT = ∅` in terms of its members (10_state.md R28). -/
theorem FaultSet.isEmpty_iff_has (f : FaultSet) : f.isEmpty = true ↔ ∀ c, f.has c = false := by
  constructor
  · intro h c
    rw [(FaultSet.isEmpty_iff f).mp h, FaultSet.has_empty]
  · intro h
    have hi : f.illegalRequest = false := h .illegalRequest
    have hu : f.useBeforeBegin = false := h .useBeforeBegin
    have hb : f.beginRepeated = false := h .beginRepeated
    have hc : f.coordOverflow = false := h .coordOverflow
    simp [FaultSet.isEmpty, hi, hu, hb, hc]

/-- The block is halted when FAULT has a member (10_state.md R28). -/
theorem halted_eq_true_iff (s : State) : s.halted = true ↔ ∃ c, s.fault.has c = true := by
  rw [State.halted, Bool.not_eq_true', ← Bool.not_eq_true, FaultSet.isEmpty_iff_has]
  simp

/-! ### STATUS -/

/-- The bits of STATUS, the lowest first (10_state.md R35). -/
theorem getLsbD_status (s : State) (j : Nat) :
    s.status.getLsbD j =
      if j < 1 then s.busy
      else if j < 3 then s.phase.code.getLsbD (j - 1)
      else if j < 4 then decide (s.rate = .fast)
      else if j < 5 then s.halted
      else if j < 6 then s.fault.has .illegalRequest
      else if j < 7 then s.fault.has .useBeforeBegin
      else if j < 8 then s.fault.has .beginRepeated
      else decide (j < 9) && s.fault.has .coordOverflow := by
  have hrate : s.rate.code = BitVec.ofBool (decide (s.rate = .fast)) := by cases s.rate <;> rfl
  refine (show s.status.getLsbD j = _ from BitVec.getLsbD_append).trans ?_
  simp only [BitVec.getLsbD_append, hrate]
  match j with
  | 0 | 1 | 2 | 3 | 4 | 5 | 6 | 7 | 8 => simp [FaultSet.has]
  | j + 9 => simp +arith

/-- Bits 2:1 of STATUS are the code of PHASE (10_state.md R35, R21). -/
theorem extractLsb'_status_phase (s : State) : s.status.extractLsb' 1 2 = s.phase.code := by
  apply BitVec.eq_of_getLsbD_eq
  intro j hj
  have h3 : 1 + j < 3 := by omega
  simp [getLsbD_status, hj, h3]

/-- The reserved bits 15:9 of STATUS read zero (10_state.md R35). -/
theorem extractLsb'_status_reserved (s : State) : s.status.extractLsb' 9 7 = 0 := by
  apply BitVec.eq_of_getLsbD_eq
  intro j _
  rw [BitVec.getLsbD_extractLsb', getLsbD_status]
  simp +arith

/-- STATUS reads zero after reset, whatever the parameters (10_state.md R35). -/
theorem status_resetWith (c : Config) : (State.resetWith c).status = 0x0000 := by
  apply BitVec.eq_of_getLsbD_eq
  intro j _
  rw [getLsbD_status]
  simp [State.resetWith, State.busy, State.halted, FaultSet.isEmpty, Phase.code]

/-! ### Block reset -/

/-- The reset table of 10_state.md R40 under any parameters. -/
theorem resetValues_resetWith (c : Config) : ResetValues (State.resetWith c) :=
  ⟨rfl, fun _ => rfl, rfl, rfl, rfl, rfl, FaultSet.has_empty, rfl, rfl, rfl, rfl, rfl, status_resetWith c⟩

/-- The fields that block reset keeps (log 14) are none that the reset table speaks of. -/
theorem resetValues_blockReset (s : State) : ResetValues (blockReset s) := resetValues_resetWith s.cfg

/-- The listed turn is the next step. -/
theorem step_of_turn {s : State} {u : Turn} {ts : List Turn} (h : s.turns = u :: ts) :
    step s = turn u { s with turns := ts } := by
  rw [step, nextStep, h]

/-! ### PHASE in the four situations of the invariant -/

/-- Only SET_PHASE moves PHASE (42_wire_protocol.md R157). -/
theorem linesAfter_phase {ms : List MicroOp} (h : ∀ p, .setPhase p ∉ ms) (l : Lines) :
    (linesAfter ms l).phase = l.phase := by
  induction ms generalizing l with
  | nil => rfl
  | cons m ms ih =>
    have hm : (m.onLines l).phase = l.phase := by
      cases m with
      | setPhase p => exact absurd (.head _) (h p)
      | _ => rfl
    rw [linesAfter_cons, ih (fun p hp => h p (.tail _ hp)), hm]

theorem setPhase_not_mem_displayScript (c : Config) (p : Phase) : .setPhase p ∉ displayScript c :=
  fun h => by simpa using mem_displayScript h

theorem NotBegun.phase {s : State} (h : NotBegun s) : s.phase = .uninit := by
  obtain ⟨-, -, hl, -, -⟩ := h
  exact congrArg Lines.phase hl

theorem Ready.phase {s : State} (h : Ready s) : s.phase = .active := by
  obtain ⟨-, -, ⟨_, hl⟩, -⟩ := h
  exact congrArg Lines.phase hl

theorem Ready.fbFull {s : State} (h : Ready s) : FbFull s := by
  obtain ⟨-, -, -, hfull⟩ := h
  exact hfull

/-- DISPLAY runs in ACTIVE throughout, since its script holds no SET_PHASE (43_sequences.md R195). -/
theorem Displaying.phase {s : State} (h : Displaying s) : s.phase = .active := by
  obtain ⟨-, -, -, done, m, hscript, hl, -⟩ := h
  have hdone : ∀ p, .setPhase p ∉ done := fun p hp =>
    setPhase_not_mem_displayScript s.cfg p (hscript ▸ List.mem_append_left _ hp)
  calc s.phase = (linesAfter done (activeLines m)).phase := congrArg Lines.phase hl
    _ = .active := linesAfter_phase hdone _

/-- With no script left the block has not begun or is ready: in the two other situations a script runs. -/
theorem Inv.notBegun_or_ready {s : State} (h : Inv s) (hs : s.script = []) : NotBegun s ∨ Ready s := by
  obtain ⟨-, -, -, hn | ⟨-, hne, -⟩ | hr | ⟨-, hne, -⟩⟩ := h
  · exact .inl hn
  · exact absurd hs hne
  · exact .inr hr
  · exact absurd hs hne

/-- Outside the BEGIN script PHASE is UNINIT or ACTIVE (10_state.md R38). -/
theorem Inv.beginning_or_phase {s : State} (h : Inv s) :
    Beginning s ∨ s.phase = .uninit ∨ s.phase = .active := by
  obtain ⟨-, -, -, hn | hb | hr | hd⟩ := h
  · exact .inr (.inl hn.phase)
  · exact .inl hb
  · exact .inr (.inr hr.phase)
  · exact .inr (.inr hd.phase)

/-! ### The obligations -/

/-- Settles O5: an idle block has not begun or is ready, and the three situations other than the BEGIN script are in
UNINIT or ACTIVE. -/
theorem idleMeansUninitOrActiveAndFull : Obligations.IdleMeansUninitOrActiveAndFull := by
  intro s hinv
  constructor
  · intro hidle
    obtain ⟨hscript, -⟩ := (busy_eq_false_iff s).mp hidle
    rcases hinv.notBegun_or_ready hscript with hn | hr
    · exact ⟨.inl hn.phase, by simp [hn.phase]⟩
    · exact ⟨.inr hr.phase, fun _ i hi => Option.isSome_iff_exists.mp (hr.fbFull i hi)⟩
  · rcases hinv.beginning_or_phase with hb | hp | hp
    · exact fun _ => hb
    · simp [hp]
    · simp [hp]

/-- Settles O1: the reset values under any parameters, and block reset's listed turn is the step. -/
theorem blockResetInstallsTheResetTable : Obligations.BlockResetInstallsTheResetTable :=
  ⟨resetValues_resetWith _, fun _ _ hturns => ⟨_, step_of_turn hturns, resetValues_blockReset _⟩⟩

/-- Settles O29: each field read off the bits of STATUS. -/
theorem statusFieldsReadTheState : Obligations.StatusFieldsReadTheState := by
  refine ⟨fun s => ⟨?busy, ?phase, ?rate, ?faulted, getLsbD_status s 5, getLsbD_status s 6, getLsbD_status s 7,
    getLsbD_status s 8, extractLsb'_status_reserved s, rfl⟩, status_resetWith _⟩
  case busy =>
    rw [getLsbD_status]
    exact busy_eq_true_iff s
  case phase =>
    rw [extractLsb'_status_phase]
    cases s.phase <;> rfl
  case rate =>
    rw [getLsbD_status]
    exact decide_eq_true_iff
  case faulted =>
    rw [getLsbD_status]
    exact halted_eq_true_iff s

end Sys2Proof.Machine

/-! ## The two wire bytes of an encoded colour (20_memory.md) -/

namespace Sys2Proof.Machine

/-! ### The octets of an encoded colour -/

/-- The swap of R100 puts the pack's high octet in the low half of the pixel. -/
@[simp] theorem lo8_encodeRgb (rgb : Rgb) : lo8 (encodeRgb rgb) = ~~~(hi8 (packBgr565 rgb)) := by
  rw [encodeRgb, lo8_not, lo8_swapOctets]

@[simp] theorem hi8_encodeRgb (rgb : Rgb) : hi8 (encodeRgb rgb) = ~~~(lo8 (packBgr565 rgb)) := by
  rw [encodeRgb, hi8_not, hi8_swapOctets]

/-! ### The obligation -/

/-- Settles O33: LOW_FIRST sends the pixel's low octet, which is the inverted high octet of the pack, and then its high
octet; the example is evaluated. -/
theorem lowFirstSendsTheHighOctetOfThePackFirst : Obligations.LowFirstSendsTheHighOctetOfThePackFirst :=
  fun rgb => ⟨lo8_encodeRgb rgb, hi8_encodeRgb rgb, by decide, by decide⟩

end Sys2Proof.Machine

/-! ## The encoded pixel and the pseudo-requests (30_encoding.md) -/

namespace Sys2Proof.Machine

/-! ### The fields of an encoded colour -/

/-- The colour bit that pixel bit `j` is the inverse of (30_encoding.md R85): `G6[5:3]` in bits 2:0, `B5` in bits 7:3, `R5`
in bits 12:8 and `G6[2:0]` in bits 15:13. -/
def encodedBit (j : Nat) : Nat :=
  if j < 3 then 13 + j else if j < 8 then j else if j < 13 then 11 + j else j - 3

/-- The octet swap undone on the bit index, so that each half reads its fields of the pack. -/
theorem getLsbD_swapOctets_packBgr565 (rgb : Rgb) {j : Nat} (hj : j < 16) :
    (swapOctets (packBgr565 rgb)).getLsbD j = rgb.getLsbD (encodedBit j) := by
  rw [getLsbD_swapOctets, getLsbD_packBgr565, getLsbD_packBgr565, encodedBit]
  match j with
  | 0 | 1 | 2 | 3 | 4 | 5 | 6 | 7 | 8 | 9 | 10 | 11 | 12 | 13 | 14 | 15 => simp
  | j + 16 => omega

theorem getLsbD_encodeRgb (rgb : Rgb) {j : Nat} (hj : j < 16) :
    (encodeRgb rgb).getLsbD j = !rgb.getLsbD (encodedBit j) := by
  rw [encodeRgb, BitVec.getLsbD_not, getLsbD_swapOctets_packBgr565 rgb hj]
  simp [hj]

/-- A field of the pixel whose bits come from consecutive colour bits is the inverse of that field of the colour. -/
theorem extractLsb'_encodeRgb (rgb : Rgb) {lo len src : Nat} (hlen : lo + len ≤ 16)
    (hsrc : ∀ j < len, encodedBit (lo + j) = src + j) :
    (encodeRgb rgb).extractLsb' lo len = ~~~(rgb.extractLsb' src len) := by
  apply BitVec.eq_of_getLsbD_eq
  intro j hj
  have hbit : (encodeRgb rgb).getLsbD (lo + j) = !rgb.getLsbD (src + j) := by
    rw [getLsbD_encodeRgb rgb (by omega), hsrc j hj]
  simp [hj, hbit]

/-! ### The encoded black -/

/-- PIX_BLACK is all ones, since the pixel is inverted (40_codec.md R106). -/
@[simp] theorem encodeRgb_black : encodeRgb 0x000000 = 0xFFFF := by decide

/-! ### The obligations -/

/-- Settles O30: ENCODE writes the encoded colour, whose four fields are read off `encodedBit`. -/
theorem encodeWritesTheInvertedSwappedPixel : Obligations.EncodeWritesTheInvertedSwappedPixel :=
  fun _ rgb => ⟨encodeRgb rgb, rfl,
    extractLsb'_encodeRgb rgb (by decide) (by decide),
    extractLsb'_encodeRgb rgb (by decide) (by decide),
    extractLsb'_encodeRgb rgb (by decide) (by decide),
    extractLsb'_encodeRgb rgb (by decide) (by decide)⟩

/-- Settles O15: CLEAR without operand takes the encoded black; the two other expansions are the definition's rows. -/
theorem pseudoRequestsExpandAsStated : Obligations.PseudoRequestsExpandAsStated :=
  fun _ => ⟨rfl, congrArg Instr.clear encodeRgb_black.symm, encodeRgb_black, fun _ => rfl⟩

end Sys2Proof.Machine

/-! ## The codec's round trips (40_codec.md) -/

namespace Sys2Proof.Machine

/-! ### Decoding, bit by bit -/

/-- The pixel bit that a kept colour bit is the inverse of: `encodedBit` read backwards. -/
def decodedBit (j : Nat) : Nat :=
  if j < 8 then j else if j < 13 then j + 3 else if j < 16 then j - 13 else j - 11

/-- The kept bits of 0x00F8FCF8 are the images of the pixel's bits, so `encodedBit` and `decodedBit` are inverse. -/
theorem encodedBit_decodedBit :
    ∀ j < 32, (0x00F8FCF8 : Rgb).getLsbD j = true → decodedBit j < 16 ∧ encodedBit (decodedBit j) = j := by
  decide

theorem decodedBit_encodedBit :
    ∀ j < 16, encodedBit j < 32 ∧ (0x00F8FCF8 : Rgb).getLsbD (encodedBit j) = true ∧ decodedBit (encodedBit j) = j := by
  decide

/-- The bits of `Decode` (40_codec.md R102): a kept bit inverts its pixel bit, every other bit is zero. The widths of the
seven concatenated fields are numerals, so each index selects its field by computation. -/
theorem getLsbD_decodePix (pix : Pixel) {j : Nat} (hj : j < 32) :
    (decodePix pix).getLsbD j = ((0x00F8FCF8 : Rgb).getLsbD j && !pix.getLsbD (decodedBit j)) := by
  rw [decodePix_def, decodedBit]
  simp only [BitVec.getLsbD_append, BitVec.getLsbD_extractLsb', getLsbD_swapOctets, BitVec.getLsbD_not]
  match j with
  | 0 | 1 | 2 | 3 | 4 | 5 | 6 | 7 | 8 | 9 | 10 | 11 | 12 | 13 | 14 | 15
  | 16 | 17 | 18 | 19 | 20 | 21 | 22 | 23 | 24 | 25 | 26 | 27 | 28 | 29 | 30 | 31 => simp
  | j + 32 => omega

/-! ### The round trips -/

/-- A kept colour bit is inverted twice; the other bits are zero on both sides. -/
theorem decodePix_encodeRgb (rgb : Rgb) : decodePix (encodeRgb rgb) = rgb &&& 0x00F8FCF8 := by
  apply BitVec.eq_of_getLsbD_eq
  intro j hj
  rw [getLsbD_decodePix _ hj, BitVec.getLsbD_and, Bool.and_comm]
  cases hkept : (0x00F8FCF8 : Rgb).getLsbD j with
  | false => rw [Bool.and_false, Bool.and_false]
  | true =>
    obtain ⟨hlt, hinv⟩ := encodedBit_decodedBit j hj hkept
    rw [getLsbD_encodeRgb rgb hlt, hinv, Bool.not_not]

@[simp] theorem encodeRgb_decodePix (pix : Pixel) : encodeRgb (decodePix pix) = pix := by
  apply BitVec.eq_of_getLsbD_eq
  intro j hj
  obtain ⟨hlt, hkept, hinv⟩ := decodedBit_encodedBit j hj
  rw [getLsbD_encodeRgb _ hj, getLsbD_decodePix pix hlt, hkept, hinv, Bool.true_and, Bool.not_not]

/-- The bits that decoding drops have no effect on the pixel (40_codec.md R103). -/
theorem encodeRgb_and_kept (rgb : Rgb) : encodeRgb (rgb &&& 0x00F8FCF8) = encodeRgb rgb := by
  rw [← decodePix_encodeRgb, encodeRgb_decodePix]

theorem encodeRgb_eq_iff (a b : Rgb) : encodeRgb a = encodeRgb b ↔ a &&& 0x00F8FCF8 = b &&& 0x00F8FCF8 := by
  constructor
  · intro h
    rw [← decodePix_encodeRgb a, h, decodePix_encodeRgb b]
  · intro h
    rw [← encodeRgb_and_kept a, h, encodeRgb_and_kept b]

/-! ### The swap and the inversion -/

theorem swapOctets_not (p : Pixel) : swapOctets (~~~p) = ~~~(swapOctets p) := by
  rw [swapOctets, lo8_not, hi8_not, swapOctets]
  exact BitVec.not_append.symm

/-! ### The obligations -/

/-- Settles O31: each round trip compares bits through `encodedBit` and `decodedBit`. -/
theorem codecRoundTrips : Obligations.CodecRoundTrips :=
  ⟨decodePix_encodeRgb, encodeRgb_decodePix⟩

/-- Settles O32: the round trips of R104 give injectivity on kept bits and a preimage of every pixel; the inversion acts on
each octet. -/
theorem codecIsABijectionOnTruncatedColours : Obligations.CodecIsABijectionOnTruncatedColours :=
  ⟨encodeRgb_eq_iff, fun pix => ⟨decodePix pix, encodeRgb_decodePix pix⟩, fun p => (swapOctets_not p).symm⟩

end Sys2Proof.Machine

/-! ## The line micro-ops and CLEAR_FB (42_wire_protocol.md) -/

namespace Sys2Proof.Machine

/-! ### The event of a line micro-op -/

@[simp] theorem setRst_trace (l : Level) (s : State) : (setRst l s).trace = s.trace ++ [.rst l] := emit_trace _ _
@[simp] theorem setCs_trace (a : CsLevel) (s : State) : (setCs a s).trace = s.trace ++ [.cs a] := emit_trace _ _
@[simp] theorem setDc_trace (m : DcMode) (s : State) : (setDc m s).trace = s.trace ++ [.dc m] := emit_trace _ _

/-! ### The filled frame buffer -/

/-- No old content is left: every cell is written, and a canonical frame buffer holds nothing beyond its cells. -/
theorem read_fillAll {s : State} (h : Fb.wf s.cfg.cells s.fb = true) (p : Pixel) (i : Nat) :
    Fb.read i (fillAll p s).fb = if i < s.cfg.cells then some p else none := by
  rw [fillAll_fb, Fb.read_paint h]
  by_cases hi : i < s.cfg.cells
  · rw [if_pos ⟨hi, rfl⟩, if_pos hi]
  · rw [if_neg (fun hsel => hi hsel.1), if_neg hi, Fb.read_outside h (Nat.le_of_not_lt hi)]

/-! ### CLEAR_FB in the scripts -/

/-- The BEGIN script's only CLEAR_FB is its last micro-op (43_sequences.md R190). -/
theorem clearFb_mem_beginScript_iff {c : Config} {p : Pixel} : .clearFb p ∈ beginScript c ↔ p = pixBlack := by
  rw [beginScript_eq, List.mem_append, List.mem_singleton]
  constructor
  · rintro (hhead | hlast)
    · obtain ⟨hnoClear, -⟩ := mem_beginScriptHead hhead
      exact absurd rfl (hnoClear p)
    · exact MicroOp.clearFb.inj hlast
  · exact fun hp => .inr (congrArg MicroOp.clearFb hp)

theorem clearFb_not_mem_displayScript (c : Config) (p : Pixel) : .clearFb p ∉ displayScript c :=
  fun h => by simpa using mem_displayScript h

/-! ### The obligations -/

/-- Settles O24: CLEAR_FB is `fillAll`, without a look at PHASE; PIX_BLACK is 0xFFFF. -/
theorem clearFbMicroOpWritesEveryCell : Obligations.ClearFbMicroOpWritesEveryCell :=
  ⟨fun s p hwf => ⟨(fillAll p s).fb, microOp_clearFb p s, wf_fillAll p hwf, read_fillAll hwf p⟩,
    fun _ _ hmem => (clearFb_mem_beginScript_iff.mp hmem).trans encodeRgb_black,
    clearFb_not_mem_displayScript⟩

/-- Settles O22: each of the three sets its line and emits without a look at the line's old value. -/
theorem lineMicroOpsSetTheLineAndEmit : Obligations.LineMicroOpsSetTheLineAndEmit :=
  fun s => ⟨fun l => ⟨setRst l s, microOp_setRst l s, setRst_trace l s, rfl⟩,
    fun a => ⟨setCs a s, microOp_setCs a s, setCs_trace a s, rfl⟩,
    fun m => ⟨setDc m s, microOp_setDc m s, setDc_trace m s, rfl⟩⟩

end Sys2Proof.Machine

/-! ## Fault entry (60_exceptions.md) -/

namespace Sys2Proof.Machine

/-! ### The requests that check PHASE first -/

theorem exec_display (s : State) :
    exec .display s = afterBegin (fun s => .next (loadScript (displayScript s.cfg) s)) s := rfl

theorem exec_clear (pix : Pixel) (s : State) :
    exec (.clear pix) s = afterBegin (fun s => .next (fillAll pix s)) s := rfl

theorem exec_drawPoint (x y : Coord) (pix : Pixel) (s : State) :
    exec (.drawPoint x y pix) s = afterBegin (fun s => .next (plot (coord x) (coord y) pix s)) s := rfl

theorem exec_drawRectOutline (x y w h : Coord) (pix : Pixel) (s : State) :
    exec (.drawRectOutline x y w h pix) s =
      afterBegin (ifRectFits x y w h fun s => .next (paintCells (inOutline s.cfg x y w h) pix s)) s := rfl

theorem exec_fillRect (x y w h : Coord) (pix : Pixel) (s : State) :
    exec (.fillRect x y w h pix) s =
      afterBegin (ifRectFits x y w h fun s => .next (paintCells (inFill s.cfg x y w h) pix s)) s := rfl

/-! ### The checks of the requests, where they raise a fault -/

theorem afterBegin_of_uninit (k : State → Host.Outcome State Fault Refusal) {s : State} (h : s.phase = .uninit) :
    afterBegin k s = .next (raiseFault .useBeforeBegin s) := if_pos h

theorem execBegin_of_ne {s : State} (h : s.phase ≠ .uninit) :
    execBegin s = .next (raiseFault .beginRepeated s) := if_neg h

theorem rectFits_eq_false {x y w h : Coord}
    (hout : x.toInt + w.toInt < -2 ^ 31 ∨ 2 ^ 31 ≤ x.toInt + w.toInt ∨
      y.toInt + h.toInt < -2 ^ 31 ∨ 2 ^ 31 ≤ y.toInt + h.toInt) : rectFits x y w h = false := by
  rw [← Bool.not_eq_true, rectFits_iff]
  omega

theorem ifRectFits_of_false {x y w h : Coord} (k : State → Host.Outcome State Fault Refusal) (s : State)
    (hout : rectFits x y w h = false) : ifRectFits x y w h k s = .next (raiseFault .coordOverflow s) :=
  if_neg (Bool.eq_false_iff.mp hout)

/-- After BEGIN the PHASE check lets a rectangle through to the range check, which a sum outside s32 fails
(41_framebuffer.md R121). -/
theorem afterBegin_ifRectFits_of_false {x y w h : Coord} (k : State → Host.Outcome State Fault Refusal) {s : State}
    (hp : s.phase ≠ .uninit) (hout : rectFits x y w h = false) :
    afterBegin (ifRectFits x y w h k) s = .next (raiseFault .coordOverflow s) :=
  (afterBegin_of_ne hp).trans (ifRectFits_of_false k s hout)

/-! ### Acceptance of a request with an illegal OP -/

theorem decodeRequest_illegal {r : Request} (h : r.op.toNat = 0 ∨ 8 ≤ r.op.toNat) :
    decodeRequest r = .error (.illegalRequest r.op) := by
  have hne : ∀ k : Byte, 1 ≤ k.toNat ∧ k.toNat ≤ 7 → r.op ≠ k := by
    rintro k hk rfl
    omega
  rw [decodeRequest, if_neg (hne _ (by decide)), if_neg (hne _ (by decide)), if_neg (hne _ (by decide)),
    if_neg (hne _ (by decide)), if_neg (hne _ (by decide)), if_neg (hne _ (by decide)), if_neg (hne _ (by decide))]

/-- The OP is decoded before PHASE or any operand is looked at (60_exceptions.md R227). -/
theorem accept_illegal {r : Request} (h : r.op.toNat = 0 ∨ 8 ≤ r.op.toNat) (s : State) :
    accept r s = .next (raiseFault .illegalRequest { s with req := none }) := by
  rw [accept, decodeRequest_illegal h]

/-- Where SEQ moves on an idle, unhalted block, the step is the acceptance of the pending request, after the turn is
used up. -/
theorem step_accept_of_seqMoves {s : State} {ts : List Turn} {r : Request} (hmoves : SeqMoves s ts)
    (hw : s.wait = .none) (hh : s.halted = false) (hs : s.script = []) (hr : s.req = some r) :
    step s = accept r { s with turns := ts } := by
  rcases hmoves with hturns | ⟨hturns, rfl⟩
  · exact (step_of_turn hturns).trans (seqTurn_of_req hw hh hs hr)
  · have hsame : { s with turns := [] } = s := by rw [← hturns]
    rw [hsame]
    exact step_accept hs hw hh hr hturns

/-! ### The obligations -/

/-- Settles O41: each of the five requests checks PHASE first, and in UNINIT that check answers; ENCODE has no check. -/
theorem useBeforeBeginIsEntered : Obligations.UseBeforeBeginIsEntered := by
  intro s i hp
  constructor
  · rintro (rfl | ⟨p, rfl⟩ | ⟨x, y, p, rfl⟩ | ⟨x, y, w, h, p, rfl⟩ | ⟨x, y, w, h, p, rfl⟩)
    · exact (exec_display s).trans (afterBegin_of_uninit _ hp)
    · exact (exec_clear p s).trans (afterBegin_of_uninit _ hp)
    · exact (exec_drawPoint x y p s).trans (afterBegin_of_uninit _ hp)
    · exact (exec_drawRectOutline x y w h p s).trans (afterBegin_of_uninit _ hp)
    · exact (exec_fillRect x y w h p s).trans (afterBegin_of_uninit _ hp)
  · rintro rgb rfl
    exact ⟨_, rfl, rfl⟩

/-- Settles O42: BEGIN's own PHASE check fails. -/
theorem secondBeginEntersBeginRepeated : Obligations.SecondBeginEntersBeginRepeated :=
  fun _ hp => execBegin_of_ne hp

/-- Settles O43: SEQ's step is the acceptance, whose decoder refuses the OP. -/
theorem illegalRequestIsEntered : Obligations.IllegalRequestIsEntered := by
  intro s ts r hmoves hw hh hs hr hop
  have hillegal : r.op.toNat = 0 ∨ 8 ≤ r.op.toNat := hop.imp_left (congrArg BitVec.toNat)
  exact (step_accept_of_seqMoves hmoves hw hh hs hr).trans (accept_illegal hillegal _)

/-- Settles O44: both requests make the PHASE check and then the range check, which fails. -/
theorem coordOverflowIsEntered : Obligations.CoordOverflowIsEntered := by
  intro s x y w h p hp hsum
  have hout := rectFits_eq_false hsum
  exact ⟨(exec_drawRectOutline x y w h p s).trans (afterBegin_ifRectFits_of_false _ hp hout),
    (exec_fillRect x y w h p s).trans (afterBegin_ifRectFits_of_false _ hp hout)⟩

end Sys2Proof.Machine

/-! ## What a step can do, by cases (00_scope.md R6) -/

namespace Sys2Proof.Machine

/-! ### The acceptance of a request -/

/-- The states an acceptance can lead to, one constructor per thing it can do (`accept_cases`). -/
inductive Accepted (r : Request) (s : State) : State → Prop where
  | fault (c : FaultCode) : Accepted r s (raiseFault c { s with req := none })
  | encode (hop : r.op = 0x07) : Accepted r s { s with req := none, rPix := some (encodeRgb r.rgb) }
  | draw (fb' : Fb) (hop : r.op = 0x03 ∨ r.op = 0x04 ∨ r.op = 0x05 ∨ r.op = 0x06) (hphase : s.phase ≠ .uninit)
      (hdraws : DrawsOn s fb') : Accepted r s { s with req := none, fb := fb' }
  | begin (hop : r.op = 0x01) (hphase : s.phase = .uninit) :
      Accepted r s { s with req := none, script := beginScript s.cfg }
  | display (hop : r.op = 0x02) (hphase : s.phase ≠ .uninit) :
      Accepted r s { s with req := none, script := displayScript s.cfg }

/-- An acceptance always completes, with one of these states. -/
theorem exists_accepted (r : Request) (s : State) : ∃ t, accept r s = .next t ∧ Accepted r s t := by
  rcases accept_cases r s with ⟨c, h⟩ | ⟨hop, h⟩ | ⟨hop, hp, fb', hd, h⟩ | ⟨hop, hp, h⟩ | ⟨hop, hp, h⟩
  · exact ⟨_, h, .fault c⟩
  · exact ⟨_, h, .encode hop⟩
  · exact ⟨_, h, .draw fb' hop hp hd⟩
  · exact ⟨_, h, .begin hop hp⟩
  · exact ⟨_, h, .display hop hp⟩

theorem accepted_of_next {r : Request} {s t : State} (h : accept r s = .next t) : Accepted r s t := by
  obtain ⟨u, hu, ha⟩ := exists_accepted r s
  rw [hu] at h
  cases h
  exact ha

section Frame

variable {r : Request} {s t : State}

theorem Accepted.cfg (h : Accepted r s t) : t.cfg = s.cfg := by cases h <;> rfl

theorem Accepted.req (h : Accepted r s t) : t.req = none := by cases h <;> rfl

theorem Accepted.wait (h : Accepted r s t) : t.wait = s.wait := by cases h <;> rfl

theorem Accepted.host (h : Accepted r s t) : t.host = s.host := by cases h <;> rfl

theorem Accepted.turns (h : Accepted r s t) : t.turns = s.turns := by cases h <;> rfl

theorem Accepted.xportReady (h : Accepted r s t) : t.xportReady = s.xportReady := by cases h <;> rfl

theorem Accepted.timerReady (h : Accepted r s t) : t.timerReady = s.timerReady := by cases h <;> rfl

theorem Accepted.lines (h : Accepted r s t) : t.lines = s.lines := by cases h <;> rfl

/-- No acceptance emits a wire event itself (43_sequences.md R199). -/
theorem Accepted.traceRev (h : Accepted r s t) : t.traceRev = s.traceRev := by cases h <;> rfl

end Frame

/-! ### The step -/

/-- The states a step can lead to, one constructor per thing it can do (`step_inversion`). -/
inductive Stepped (s : State) : State → Prop where
  | held : Stepped s { s with turns := s.turns.tail }
  | script {t : State} (m : MicroOp) (rest : List MicroOp) (hs : s.script = m :: rest) (hw : s.wait = .none)
      (hh : s.halted = false) (hm : microOp m { s with script := rest, turns := s.turns.tail } = .next t) : Stepped s t
  | accept {t : State} (r : Request) (hs : s.script = []) (hw : s.wait = .none) (hh : s.halted = false)
      (hr : s.req = some r) (ha : Accepted r { s with turns := s.turns.tail } t) : Stepped s t
  | waitOver (h : (s.wait = .tx ∧ Moves .xport s) ∨ ∃ d, s.wait = .delay d ∧ Moves .timer s) :
      Stepped s { s with turns := s.turns.tail, wait := .none }
  | present (r : Request) (rest : List Request) (hr : s.req = none) (hh : s.host = r :: rest) :
      Stepped s { s with turns := s.turns.tail, req := some r, host := rest }
  | reset (h : s.turns.head? = some .blockReset) : Stepped s (blockReset { s with turns := s.turns.tail })

theorem stepped_of_next {s t : State} (h : step s = .next t) : Stepped s t := by
  obtain ⟨_, rfl, rfl | ⟨m, rest, hs, hw, hh, hm⟩ | ⟨r, hs, hw, hh, hr, ha⟩ | ⟨hw, rfl⟩ | ⟨r, rest, hr, hh, rfl⟩ |
    ⟨hb, rfl⟩⟩ := step_inversion h
  · exact .held
  · exact .script m rest hs hw hh hm
  · exact .accept r hs hw hh hr (accepted_of_next ha)
  · exact .waitOver hw
  · exact .present r rest hr hh
  · exact .reset hb

section ScriptStep

variable {s t : State} {m : MicroOp} {rest : List MicroOp} {ts : List Turn}

theorem scriptStep_cfg (h : microOp m { s with script := rest, turns := ts } = .next t) : t.cfg = s.cfg := by
  obtain ⟨hcfg, -⟩ := microOp_frame h
  exact hcfg

theorem scriptStep_fault (h : microOp m { s with script := rest, turns := ts } = .next t) : t.fault = s.fault := by
  obtain ⟨-, hfault, -⟩ := microOp_frame h
  exact hfault

theorem scriptStep_script (h : microOp m { s with script := rest, turns := ts } = .next t) : t.script = rest := by
  obtain ⟨-, -, -, -, hscript, -⟩ := microOp_frame h
  exact hscript

theorem scriptStep_rPix (h : microOp m { s with script := rest, turns := ts } = .next t) : t.rPix = s.rPix := by
  obtain ⟨-, -, hrPix, -⟩ := microOp_frame h
  exact hrPix

theorem scriptStep_req (h : microOp m { s with script := rest, turns := ts } = .next t) : t.req = s.req := by
  obtain ⟨-, -, -, hreq, -⟩ := microOp_frame h
  exact hreq

theorem scriptStep_host (h : microOp m { s with script := rest, turns := ts } = .next t) : t.host = s.host := by
  obtain ⟨-, -, -, -, -, hhost, -⟩ := microOp_frame h
  exact hhost

end ScriptStep

theorem Stepped.cfg {s t : State} (h : Stepped s t) : t.cfg = s.cfg := by
  cases h with
  | script _ _ _ _ _ hm => exact scriptStep_cfg hm
  | accept _ _ _ _ _ ha => exact ha.cfg
  | held | waitOver _ | present _ _ _ _ | reset _ => rfl

/-- Settles O11: the parameters, case by case of the step. -/
theorem noStepChangesTheParameters : Obligations.NoStepChangesTheParameters :=
  fun _ _ h => (stepped_of_next h).cfg

end Sys2Proof.Machine

/-! ## The invariant (10_state.md section 9) -/

namespace Sys2Proof.Machine

/-! ### After reset -/

/-- The delays built from free values keep the order of 00_scope.md R11. -/
theorem defaultDurations_wf : Config.defaultDurations.wf = true := by
  simp only [Durations.wf, Bool.and_eq_true, decide_eq_true_eq]
  simp only [Config.defaultDurations]
  omega

theorem default_wf : Config.default.wf = true := by
  have hopc : Config.default.opc.all.Nodup := by decide
  have hdur : Config.default.durations.wf = true := defaultDurations_wf
  have hrate : Config.default.rateSlow < Config.default.rateFast := by simp only [Config.default]; omega
  simp only [Config.wf, Bool.and_eq_true, decide_eq_true_eq]
  exact ⟨⟨⟨⟨⟨⟨by decide, by decide⟩, by decide⟩, by decide⟩, hopc⟩, hdur⟩, hrate⟩

theorem inv_resetWith {c : Config} (h : c.wf = true) : Inv (State.resetWith c) :=
  ⟨h, wf_resetWith c, Nat.zero_le 1, .inl ⟨rfl, rfl, rfl, rfl, rfl⟩⟩

/-- Settles O3: the reset lines with nothing begun, and the default parameters meet each constraint. -/
theorem invariantHoldsAfterReset : Obligations.InvariantHoldsAfterReset :=
  ⟨inv_resetWith default_wf, fun _ => inv_resetWith⟩

/-! ### The frame buffer and FAULT -/

/-- Every step keeps the frame buffer canonical. -/
theorem Stepped.fb_wf {s t : State} (h : Stepped s t) (hwf : Fb.wf s.cfg.cells s.fb = true) :
    Fb.wf t.cfg.cells t.fb = true := by
  cases h with
  | script m rest _ _ _ hm =>
    rcases microOp_fb hm with hfb | ⟨p, -, rfl⟩
    · rw [scriptStep_cfg hm, hfb]
      exact hwf
    · exact wf_fillAll p hwf
  | accept r _ _ _ _ ha =>
    cases ha with
    | draw fb' _ _ hdraws => exact hdraws.wf hwf
    | fault | encode | begin | display => exact hwf
  | held | waitOver _ | present _ _ _ _ => exact hwf
  | reset _ => rfl

/-- Only an unhalted block raises a fault, so FAULT never has two codes (60_exceptions.md R227). -/
theorem Stepped.fault_count {s t : State} (h : Stepped s t) (hcount : s.fault.count ≤ 1) : t.fault.count ≤ 1 := by
  cases h with
  | script m rest _ _ _ hm => rwa [scriptStep_fault hm]
  | accept r _ _ hh _ ha =>
    cases ha with
    | fault c =>
      have hfault : s.fault = {} := (halted_eq_false_iff s).mp hh
      change (s.fault.insert c).count ≤ 1
      rw [hfault, FaultSet.count_insert_empty]
    | encode | draw | begin | display => exact hcount
  | held | waitOver _ | present _ _ _ _ => exact hcount
  | reset _ => exact Nat.zero_le 1

/-! ### A script under way -/

/-- `done` of a script has been performed from given lines, and SCRIPT is the rest of it. -/
def RunsFrom (ms : List MicroOp) (l : Lines) (s : State) : Prop :=
  ∃ done, ms = done ++ s.script ∧ s.lines = linesAfter done l ∧ WaitFits done s.wait

/-- A script just loaded. -/
theorem runsFrom_start {ms : List MicroOp} {l : Lines} {s : State} (hs : s.script = ms) (hl : s.lines = l)
    (hw : s.wait = .none) : RunsFrom ms l s :=
  ⟨[], hs.symm, hl, .inl hw⟩

theorem RunsFrom.waitOver {ms : List MicroOp} {l : Lines} {s : State} (h : RunsFrom ms l s) (ts : List Turn) :
    RunsFrom ms l { s with turns := ts, wait := .none } := by
  obtain ⟨done, hms, hl, -⟩ := h
  exact ⟨done, hms, hl, .inl rfl⟩

/-- A script step moves one micro-op to those performed. -/
theorem RunsFrom.microOp {ms rest : List MicroOp} {l : Lines} {s t : State} {m : MicroOp} {ts : List Turn}
    (h : RunsFrom ms l s) (hs : s.script = m :: rest) (hw : s.wait = .none)
    (hm : microOp m { s with script := rest, turns := ts } = .next t) : RunsFrom ms l t := by
  obtain ⟨done, hms, hl, -⟩ := h
  obtain ⟨htl, htw⟩ := microOp_lines hm hw
  refine ⟨done ++ [m], ?_, ?_, .inr ⟨m, by simp, htw⟩⟩
  · rw [scriptStep_script hm, hms, hs]
    simp
  · rw [linesAfter_append, ← hl]
    exact htl

/-- At the end of a script its last micro-op has been performed, and the lines are those after the whole. -/
theorem RunsFrom.lines_of_done {ms : List MicroOp} {l : Lines} {s : State} (h : RunsFrom ms l s) (hs : s.script = []) :
    s.lines = linesAfter ms l := by
  obtain ⟨done, hms, hl, -⟩ := h
  rw [hms, hs, List.append_nil, hl]

theorem beginning_iff {s : State} :
    Beginning s ↔ s.fault = {} ∧ s.script ≠ [] ∧ s.fb = [] ∧ RunsFrom (beginScript s.cfg) resetLines s := Iff.rfl

theorem displaying_iff {s : State} :
    Displaying s ↔ s.fault = {} ∧ s.script ≠ [] ∧ FbFull s ∧
      ∃ m, RunsFrom (displayScript s.cfg) (activeLines m) s := by
  refine and_congr_right fun _ => and_congr_right fun _ => and_congr_right fun _ => ?_
  exact exists_comm

theorem FbFull.of_eq {s t : State} (h : FbFull s) (hcfg : t.cfg = s.cfg) (hfb : t.fb = s.fb) : FbFull t := by
  intro i hi
  rw [State.cell, hfb]
  exact h i (hcfg ▸ hi)

theorem fbFull_fillAll {s : State} (p : Pixel) (h : Fb.wf s.cfg.cells s.fb = true) : FbFull (fillAll p s) := by
  intro i hi
  have hi' : i < s.cfg.cells := hi
  rw [State.cell, read_fillAll h, if_pos hi', Option.isSome_some]

/-- The DISPLAY script ends with the release of chip-select (43_sequences.md R195, 42_wire_protocol.md R174). -/
theorem displayScript_getLast? (c : Config) : (displayScript c).getLast? = some (.setCs .released) := by
  rw [displayScript, streamScript, ← List.append_assoc, List.getLast?_concat]

/-! ### The situation, step by step -/

/-- One of the four situations of the invariant. -/
def Situated (s : State) : Prop := NotBegun s ∨ Beginning s ∨ Ready s ∨ Displaying s

/-- A script step of BEGIN: CLEAR_FB, the last, leaves the block ready; any other leaves the script running. -/
theorem Beginning.microOp {s t : State} {m : MicroOp} {rest : List MicroOp} {ts : List Turn} (h : Beginning s)
    (hs : s.script = m :: rest) (hw : s.wait = .none)
    (hm : microOp m { s with script := rest, turns := ts } = .next t) : Situated t := by
  obtain ⟨hfault, -, hfb, hrun⟩ := beginning_iff.mp h
  have hrun' := hrun.microOp hs hw hm
  obtain ⟨done, hdone, -⟩ := hrun
  rw [hs] at hdone
  rcases beginScript_split hdone with ⟨rfl, rfl, -⟩ | ⟨hrest, hmem⟩
  · have hl := hrun'.lines_of_done (scriptStep_script hm)
    rw [linesAfter_beginScript] at hl
    cases hm
    have hempty : Fb.wf s.cfg.cells s.fb = true := by rw [hfb]; rfl
    exact .inr (.inr (.inl ⟨rfl, hw, ⟨.cmd, hl⟩, fbFull_fillAll pixBlack hempty⟩))
  · obtain ⟨hclear, -⟩ := mem_beginScriptHead hmem
    have hfb' : t.fb = s.fb := (microOp_fb hm).resolve_right fun ⟨p, hp, _⟩ => hclear p hp
    refine .inr (.inl (beginning_iff.mpr ⟨(scriptStep_fault hm).trans hfault, ?_, hfb'.trans hfb, ?_⟩))
    · rwa [scriptStep_script hm]
    · rwa [scriptStep_cfg hm]

/-- A script step of DISPLAY: the last releases chip-select and leaves the block ready again. -/
theorem Displaying.microOp {s t : State} {m : MicroOp} {rest : List MicroOp} {ts : List Turn} (h : Displaying s)
    (hs : s.script = m :: rest) (hw : s.wait = .none)
    (hm : microOp m { s with script := rest, turns := ts } = .next t) : Situated t := by
  obtain ⟨hfault, -, hfull, d, hrun⟩ := displaying_iff.mp h
  have hrun' := hrun.microOp hs hw hm
  obtain ⟨done, hdone, -⟩ := hrun
  rw [hs] at hdone
  have hclear : ∀ p, m ≠ .clearFb p := by
    rintro p rfl
    exact clearFb_not_mem_displayScript s.cfg p (hdone ▸ by simp)
  have hfb : t.fb = s.fb := (microOp_fb hm).resolve_right fun ⟨p, hp, _⟩ => hclear p hp
  have hfull' : FbFull t := hfull.of_eq (scriptStep_cfg hm) hfb
  by_cases hrest : rest = []
  · subst hrest
    have hlast : m = .setCs .released := by
      have := displayScript_getLast? s.cfg
      rw [hdone] at this
      simpa using this
    have hl := hrun'.lines_of_done (scriptStep_script hm)
    rw [linesAfter_displayScript] at hl
    subst hlast
    cases hm
    exact .inr (.inr (.inl ⟨rfl, hw, ⟨.data, hl⟩, hfull'⟩))
  · refine .inr (.inr (.inr (displaying_iff.mpr ⟨(scriptStep_fault hm).trans hfault, ?_, hfull', d, ?_⟩)))
    · rwa [scriptStep_script hm]
    · rwa [scriptStep_cfg hm]

/-- The acceptance of a request by a block that has not begun: only BEGIN leaves that situation. -/
theorem NotBegun.accepted {r : Request} {s t : State} (h : NotBegun s) (hfault : s.fault = {})
    (ha : Accepted r s t) : Situated t := by
  have hphase := h.phase
  cases ha with
  | fault | encode => exact .inl h
  | draw _ _ hp | display _ hp => exact absurd hphase hp
  | begin =>
    obtain ⟨-, hw, hl, hfb, -⟩ := h
    exact .inr (.inl (beginning_iff.mpr ⟨hfault, by simp [beginScript], hfb, runsFrom_start rfl hl hw⟩))

/-- The acceptance of a request by a ready block: drawing loses no cell, and DISPLAY begins its script. -/
theorem Ready.accepted {r : Request} {s t : State} (h : Ready s) (hfault : s.fault = {})
    (hwf : Fb.wf s.cfg.cells s.fb = true) (ha : Accepted r s t) : Situated t := by
  have hphase := h.phase
  obtain ⟨hs, hw, ⟨m, hl⟩, hfull⟩ := h
  cases ha with
  | fault | encode => exact .inr (.inr (.inl ⟨hs, hw, ⟨m, hl⟩, hfull⟩))
  | draw fb' _ _ hdraws =>
    exact .inr (.inr (.inl ⟨hs, hw, ⟨m, hl⟩, fun i hi => hdraws.keeps hwf i (hfull i hi)⟩))
  | begin _ hp => rw [hphase] at hp; cases hp
  | display =>
    have hne : displayScript s.cfg ≠ [] := by simp [displayScript, streamScript]
    exact .inr (.inr (.inr (displaying_iff.mpr ⟨hfault, hne, hfull, m, runsFrom_start rfl hl hw⟩)))

/-- The end of a wait leaves the situation: only a running script waits. -/
theorem Situated.waitOver {s : State} (h : Situated s) (ts : List Turn) :
    Situated { s with turns := ts, wait := .none } := by
  rcases h with ⟨hs, -, hrest⟩ | hb | ⟨hs, -, hrest⟩ | hd
  · exact .inl ⟨hs, rfl, hrest⟩
  · obtain ⟨hfault, hne, hfb, hrun⟩ := beginning_iff.mp hb
    exact .inr (.inl (beginning_iff.mpr ⟨hfault, hne, hfb, hrun.waitOver ts⟩))
  · exact .inr (.inr (.inl ⟨hs, rfl, hrest⟩))
  · obtain ⟨hfault, hne, hfull, m, hrun⟩ := displaying_iff.mp hd
    exact .inr (.inr (.inr (displaying_iff.mpr ⟨hfault, hne, hfull, m, hrun.waitOver ts⟩)))

theorem Inv.situated {s : State} (h : Inv s) : Situated s := by
  obtain ⟨-, -, -, hsit⟩ := h
  exact hsit

theorem Inv.fb_wf {s : State} (h : Inv s) : Fb.wf s.cfg.cells s.fb = true := by
  obtain ⟨-, hwf, -⟩ := h
  exact hwf

theorem Stepped.situated {s t : State} (h : Stepped s t) (hinv : Inv s) : Situated t := by
  have hsit := hinv.situated
  cases h with
  | held | present _ _ _ _ => exact hsit
  | waitOver _ => exact hsit.waitOver _
  | reset _ => exact .inl ⟨rfl, rfl, rfl, rfl, rfl⟩
  | script m rest hs hw _ hm =>
    rcases hsit with ⟨hn, -⟩ | hb | ⟨hr, -⟩ | hd
    · rw [hn] at hs; cases hs
    · exact hb.microOp hs hw hm
    · rw [hr] at hs; cases hs
    · exact hd.microOp hs hw hm
  | accept r hs _ hh _ ha =>
    have hfault := (halted_eq_false_iff s).mp hh
    rcases hinv.notBegun_or_ready hs with hn | hr
    · exact NotBegun.accepted (s := { s with turns := s.turns.tail }) hn hfault ha
    · exact Ready.accepted (s := { s with turns := s.turns.tail }) hr hfault hinv.fb_wf ha

/-! ### The obligation -/

/-- Settles O4: each of the four parts of the invariant is kept, case by case of the step. -/
theorem everyStepKeepsTheInvariant : Obligations.EveryStepKeepsTheInvariant := by
  intro s t hinv hstep
  have h := stepped_of_next hstep
  have hsituated := h.situated hinv
  obtain ⟨hcfg, hfb, hfault, -⟩ := hinv
  exact ⟨h.cfg ▸ hcfg, h.fb_wf hfb, h.fault_count hfault, hsituated⟩

end Sys2Proof.Machine

/-! ## Safety under the invariant (10_state.md R21, R27, R39; 42_wire_protocol.md R164) -/

namespace Sys2Proof.Machine

/-! ### The discipline of the scripts at the point reached -/

/-- Where a script keeps the discipline, it holds of the next micro-op at the lines of the state. -/
theorem RunsFrom.pointFits {ms rest : List MicroOp} {l : Lines} {s : State} {m : MicroOp} (h : RunsFrom ms l s)
    (hfits : AllAlong PointFits ms l) (hs : s.script = m :: rest) : PointFits s.lines m := by
  obtain ⟨done, hms, hl, -⟩ := h
  rw [hms, hs] at hfits
  rw [hl]
  exact hfits.at_split

/-- A running delay was begun with chip-select released, and WAIT moves no line. -/
theorem RunsFrom.csOut_of_delay {ms : List MicroOp} {l : Lines} {s : State} {d : DelayName} (h : RunsFrom ms l s)
    (hfits : AllAlong PointFits ms l) (hw : s.wait = .delay d) : s.csOut = .released := by
  obtain ⟨done, hms, hl, hwait⟩ := h
  rcases hwait with hnone | ⟨m, hlast, hm⟩
  · rw [hw] at hnone; cases hnone
  · obtain ⟨before, rfl⟩ := List.getLast?_eq_some_iff.mp hlast
    have hdelay : m = .wait d := by
      rw [hw] at hm
      cases m <;> cases hm
      rfl
    subst hdelay
    rw [hms, List.append_assoc] at hfits
    obtain ⟨hreleased, -⟩ := hfits.at_split
    calc s.csOut = (linesAfter (before ++ [MicroOp.wait d]) l).csOut := congrArg Lines.csOut hl
      _ = (linesAfter before l).csOut := by rw [linesAfter_append]; rfl
      _ = .released := hreleased

/-- In every situation with a script running, the next micro-op keeps the discipline. -/
theorem Inv.pointFits {s : State} {m : MicroOp} {rest : List MicroOp} (h : Inv s) (hs : s.script = m :: rest) :
    PointFits s.lines m := by
  rcases h.situated with ⟨hn, -⟩ | hb | ⟨hr, -⟩ | hd
  · rw [hn] at hs; cases hs
  · obtain ⟨-, -, -, hrun⟩ := beginning_iff.mp hb
    exact hrun.pointFits (beginScript_fits _) hs
  · rw [hr] at hs; cases hs
  · obtain ⟨-, -, -, d, hrun⟩ := displaying_iff.mp hd
    exact hrun.pointFits (displayScript_fits _ d) hs

/-- A micro-op the DISPLAY script does not hold is one of BEGIN's. -/
theorem Inv.beginning_of_script {s : State} {m : MicroOp} {rest : List MicroOp} (h : Inv s)
    (hs : s.script = m :: rest) (hm : m ∉ displayScript s.cfg) : Beginning s := by
  rcases h.situated with ⟨hn, -⟩ | hb | ⟨hr, -⟩ | hd
  · rw [hn] at hs; cases hs
  · exact hb
  · rw [hr] at hs; cases hs
  · obtain ⟨-, -, -, _, done, hms, -⟩ := displaying_iff.mp hd
    exact absurd (by rw [hms, hs]; simp) hm

theorem setRate_not_mem_displayScript (c : Config) (r : Rate) : .setRate r ∉ displayScript c :=
  fun h => by simpa using mem_displayScript h

/-! ### What a step does to the lines and to TRACE -/

/-- Block reset aside, only a script step moves the lines. -/
theorem Stepped.lines_cases {s t : State} (h : Stepped s t) (hn : NoReset s) :
    t.lines = s.lines ∨ ∃ m rest, s.script = m :: rest ∧ t.lines = m.onLines s.lines := by
  cases h with
  | held | waitOver _ | present _ _ _ _ => exact .inl rfl
  | accept _ _ _ _ _ ha => exact .inl ha.lines
  | script m rest hs hw _ hm =>
    obtain ⟨hl, -⟩ := microOp_lines hm hw
    exact .inr ⟨m, rest, hs, hl⟩
  | reset hb => exact absurd hb hn

theorem MicroOp.onLines_phase {m : MicroOp} {l : Lines} (h : (m.onLines l).phase ≠ l.phase) :
    m = .setPhase (m.onLines l).phase := by
  cases m with
  | setPhase p => rfl
  | _ => exact absurd rfl h

theorem MicroOp.onLines_rate {m : MicroOp} {l : Lines} (h : (m.onLines l).rate ≠ l.rate) :
    m = .setRate (m.onLines l).rate := by
  cases m with
  | setRate p => rfl
  | _ => exact absurd rfl h

/-- A micro-op that completes emits its event and no other. -/
theorem microOp_traceRev {m : MicroOp} {s t : State} (h : microOp m s = .next t) :
    t.traceRev = (m.event s.cfg s.fb s.lines).reverse ++ s.traceRev := by
  cases m with
  | txPix k =>
    rcases txPix_cases k s with ⟨p, hp, htx⟩ | htx | htx <;> rw [microOp_txPix, htx] at h <;> cases h
    simp [MicroOp.event, hp, State.lines]
  | _ => cases h; rfl

/-- A micro-op emits at most one event. -/
theorem MicroOp.event_cases (m : MicroOp) (c : Config) (fb : Fb) (l : Lines) :
    m.event c fb l = [] ∨ ∃ e, m.event c fb l = [e] := by
  cases m with
  | txPix k =>
    cases h : Fb.read (k / 2) fb with
    | none => exact .inl (by simp [MicroOp.event, h])
    | some p => exact .inr ⟨_, by simp [MicroOp.event, h]; rfl⟩
  | setPhase _ | clearFb _ => exact .inl rfl
  | _ => exact .inr ⟨_, rfl⟩

/-- A byte is emitted by TX or TX_PIX, with the mode line and the rate it finds. -/
theorem MicroOp.event_byte {m : MicroOp} {c : Config} {fb : Fb} {l : Lines} {b : Byte} {d : DcOut} {r : Rate}
    (h : .byte b d r ∈ m.event c fb l) : (m.Fits l → ByteFits l) ∧ d = l.dcOut ∧ r = l.rate := by
  cases m with
  | tx v =>
    obtain ⟨rfl, rfl, rfl⟩ : b = v ∧ d = l.dcOut ∧ r = l.rate := by simpa [MicroOp.event] using h
    exact ⟨id, rfl, rfl⟩
  | txPix k =>
    simp only [MicroOp.event, Option.mem_toList, Option.map_eq_some_iff, Event.byte.injEq] at h
    obtain ⟨_, _, _, rfl, rfl⟩ := h
    exact ⟨id, rfl, rfl⟩
  | _ => simp [MicroOp.event] at h

/-- The events of a step: none, those of a script step's micro-op, or block reset's empty TRACE. -/
theorem Stepped.traceRev_cases {s t : State} (h : Stepped s t) :
    (s.turns.head? = some .blockReset ∧ t.traceRev = []) ∨ t.traceRev = s.traceRev ∨
    ∃ m rest, s.script = m :: rest ∧ t.traceRev = (m.event s.cfg s.fb s.lines).reverse ++ s.traceRev := by
  cases h with
  | held | waitOver _ | present _ _ _ _ => exact .inr (.inl rfl)
  | accept _ _ _ _ _ ha => exact .inr (.inl ha.traceRev)
  | script m rest hs _ _ hm =>
    have ht := microOp_traceRev hm
    exact .inr (.inr ⟨m, rest, hs, ht⟩)
  | reset hb => exact .inl ⟨hb, rfl⟩

/-! ### The obligations -/

/-- Settles O21: a script step emits at most its micro-op's one event; block reset empties TRACE. -/
theorem traceIsAppendOnly : Obligations.TraceIsAppendOnly := by
  intro s t hstep
  rcases (stepped_of_next hstep).traceRev_cases with ⟨hb, ht⟩ | ht | ⟨m, rest, -, ht⟩
  · exact .inl ⟨hb, by rw [State.trace, ht, List.reverse_nil]⟩
  · exact .inr (.inl (by rw [State.trace, ht, State.trace]))
  · rcases m.event_cases s.cfg s.fb s.lines with he | ⟨e, he⟩
    · exact .inr (.inl (by rw [State.trace, ht, he, State.trace]; rfl))
    · exact .inr (.inr ⟨e, by rw [State.trace, ht, he, State.trace]; exact List.reverse_cons⟩)

/-- Settles O6: a byte event is a script step's, and the scripts keep `ByteFits` where they send. -/
theorem bytesLeaveOnlyInsideATransactionAtTheRightRate :
    Obligations.BytesLeaveOnlyInsideATransactionAtTheRightRate := by
  intro s t b d r hinv hstep htrace
  rcases (stepped_of_next hstep).traceRev_cases with ⟨-, ht⟩ | ht | ⟨m, rest, hs, ht⟩
  · rw [ht] at htrace; cases htrace
  · exact absurd (ht.symm.trans htrace) (List.cons_ne_self _ _).symm
  · have hev : (m.event s.cfg s.fb s.lines).reverse = [.byte b d r] :=
      List.append_cancel_right (bs := s.traceRev) (ht.symm.trans htrace)
    have hmem : .byte b d r ∈ m.event s.cfg s.fb s.lines := by
      rw [← List.mem_reverse, hev]
      exact List.mem_singleton_self _
    obtain ⟨hfits, rfl, rfl⟩ := MicroOp.event_byte hmem
    obtain ⟨hm, -⟩ := hinv.pointFits hs
    exact hfits hm

/-- Settles O7: a delay runs only in a script, which began it with chip-select released; PHASE RESET occurs only in the
BEGIN script, which keeps it released there. -/
theorem chipSelectIsReleasedDuringDelays : Obligations.ChipSelectIsReleasedDuringDelays := by
  rintro s hinv (⟨d, hw⟩ | hreset)
  · rcases hinv.situated with ⟨-, hnone, -⟩ | hb | ⟨-, hnone, -⟩ | hd
    · rw [hw] at hnone; cases hnone
    · obtain ⟨-, -, -, hrun⟩ := beginning_iff.mp hb
      exact hrun.csOut_of_delay (beginScript_fits _) hw
    · rw [hw] at hnone; cases hnone
    · obtain ⟨-, -, -, m, hrun⟩ := displaying_iff.mp hd
      exact hrun.csOut_of_delay (displayScript_fits _ m) hw
  · rcases hinv.beginning_or_phase with hb | hp | hp
    · obtain ⟨-, hne, -⟩ := beginning_iff.mp hb
      obtain ⟨m, rest, hs⟩ := List.exists_cons_of_ne_nil hne
      obtain ⟨-, hreleased⟩ := hinv.pointFits hs
      exact hreleased hreset
    · rw [hreset] at hp; cases hp
    · rw [hreset] at hp; cases hp

/-- Settles O8: only SET_PHASE moves PHASE, it stands in the BEGIN script alone, and that script keeps the order. -/
theorem phaseMovesStrictlyForwardInTheBeginScript : Obligations.PhaseMovesStrictlyForwardInTheBeginScript := by
  intro s t hinv hn hstep hne
  rcases (stepped_of_next hstep).lines_cases hn with hl | ⟨m, rest, hs, hl⟩
  · exact absurd (congrArg Lines.phase hl) hne
  · have hphase : t.phase = (m.onLines s.lines).phase := congrArg Lines.phase hl
    rw [hphase] at hne ⊢
    have hm := MicroOp.onLines_phase (l := s.lines) hne
    have hfits := hinv.pointFits hs
    rw [hm] at hs hfits
    obtain ⟨hmove, -⟩ := hfits
    exact ⟨hinv.beginning_of_script hs (setPhase_not_mem_displayScript _ _), hmove⟩

/-- Settles O9: only SET_RATE moves RATE, it stands in the BEGIN script alone, in CONFIG, from SLOW to FAST. -/
theorem rateStepsUpOnceInConfig : Obligations.RateStepsUpOnceInConfig := by
  intro s t hinv hn hstep hne
  rcases (stepped_of_next hstep).lines_cases hn with hl | ⟨m, rest, hs, hl⟩
  · exact absurd (congrArg Lines.rate hl) hne
  · have hrate : t.rate = (m.onLines s.lines).rate := congrArg Lines.rate hl
    rw [hrate] at hne ⊢
    have hm := MicroOp.onLines_rate (l := s.lines) hne
    have hfits := hinv.pointFits hs
    rw [hm] at hs hfits
    obtain ⟨⟨hslow, hfast, hconfig⟩, -⟩ := hfits
    exact ⟨hslow, hfast, hconfig, hinv.beginning_of_script hs (setRate_not_mem_displayScript _ _)⟩

end Sys2Proof.Machine

/-! ## Where a step stops (60_exceptions.md section 1) -/

namespace Sys2Proof.Machine

/-- Why a TX_PIX stops: its cell holds no value, or is no cell (log 23, log 13). -/
theorem txPix_stops (k : Nat) (s : State) :
    (∃ t, txPix k s = .next t) ∨
    (txPix k s = .fault (.fbNoValue (k >>> 1)) ∧ s.cell (k >>> 1) = none) ∨
    (txPix k s = .fault (.fbNoCell (k >>> 1)) ∧ s.cfg.cells ≤ k >>> 1) := by
  rw [Nat.shiftRight_one]
  unfold txPix
  rcases memRead_cases s (k / 2) with ⟨p, _, _, h⟩ | ⟨_, hr, h⟩ | ⟨hi, h⟩ <;> rw [h]
  · exact .inl ⟨_, rfl⟩
  · exact .inr (.inl ⟨rfl, hr⟩)
  · exact .inr (.inr ⟨rfl, hi⟩)

/-- A step completes, or it is a script step of TX_PIX that stops. -/
theorem step_next_or_txPix (s : State) : (∃ t, step s = .next t) ∨
    ∃ k rest, s.script = .txPix k :: rest ∧ s.wait = .none ∧ s.halted = false ∧
      ((step s = .fault (.fbNoValue (k >>> 1)) ∧ s.cell (k >>> 1) = none) ∨
       (step s = .fault (.fbNoCell (k >>> 1)) ∧ s.cfg.cells ≤ k >>> 1)) := by
  obtain ⟨u, ts, hstep, -⟩ := step_cases s
  rw [hstep]
  cases u with
  | seq =>
    rcases seqTurn_cases { s with turns := ts } with hc | ⟨hw, hh, hs, hc⟩ | ⟨r, _, _, _, _, hc⟩
    · exact .inl ⟨_, hc⟩
    · obtain ⟨m, rest, hmr⟩ := List.exists_cons_of_ne_nil hs
      rw [turn, hc, scriptStep_eq hmr]
      rcases microOp_next_or_txPix m { s with script := rest, turns := ts } with hnext | ⟨k, rfl⟩
      · exact .inl hnext
      · exact (txPix_stops k { s with script := rest, turns := ts }).imp_right fun hstop =>
          ⟨k, rest, hmr, hw, hh, hstop⟩
    · obtain ⟨t, ht, -⟩ := exists_accepted r { s with turns := ts }
      exact .inl ⟨t, hc.trans ht⟩
  | xport | timer | hostPresents | hostReads p | blockReset => exact .inl ⟨_, rfl⟩

/-- Under the invariant TX_PIX stands only in the DISPLAY script, whose cells all hold a value. -/
theorem Inv.cell_of_txPix {s : State} {k : Nat} {rest : List MicroOp} (h : Inv s) (hs : s.script = .txPix k :: rest) :
    k >>> 1 < s.cfg.cells ∧ (s.cell (k >>> 1)).isSome = true := by
  rw [Nat.shiftRight_one]
  rcases h.situated with ⟨hn, -⟩ | hb | ⟨hr, -⟩ | hd
  · rw [hn] at hs; cases hs
  · obtain ⟨-, -, -, done, hms, -⟩ := beginning_iff.mp hb
    rw [hs] at hms
    rcases beginScript_split hms with ⟨-, hclear, -⟩ | ⟨-, hmem⟩
    · cases hclear
    · obtain ⟨-, hnoPix⟩ := mem_beginScriptHead hmem
      exact absurd rfl (hnoPix k)
  · rw [hr] at hs; cases hs
  · obtain ⟨-, -, hfull, _, done, hms, -⟩ := displaying_iff.mp hd
    have hmem : .txPix k ∈ displayScript s.cfg := by rw [hms, hs]; simp
    have hk : k < 2 * s.cfg.cells := by simpa using mem_displayScript hmem
    have hcell : k / 2 < s.cfg.cells := by omega
    exact ⟨hcell, hfull _ hcell⟩

/-- Settles O10: the only two stops are TX_PIX's, and under the invariant its cell holds a value. -/
theorem noStepStopsUnderTheInvariant : Obligations.NoStepStopsUnderTheInvariant := by
  refine ⟨fun s hinv => ?_, step_next_or_txPix⟩
  refine (step_next_or_txPix s).resolve_right ?_
  rintro ⟨k, rest, hs, -, -, hstop⟩
  obtain ⟨hlt, hsome⟩ := hinv.cell_of_txPix hs
  rcases hstop with ⟨-, hnone⟩ | ⟨-, hge⟩
  · rw [hnone] at hsome; cases hsome
  · omega

end Sys2Proof.Machine

/-! ## Who writes what (10_state.md sections 3, 5 and 6; 60_exceptions.md sections 1 and 3) -/

namespace Sys2Proof.Machine

/-- R_PIX changes only where SEQ accepts an ENCODE (10_state.md R29). -/
theorem Stepped.rPix {s t : State} (h : Stepped s t) (hn : NoReset s) (hne : t.rPix ≠ s.rPix) :
    s.script = [] ∧ s.wait = .none ∧ s.halted = false ∧
      ∃ r, s.req = some r ∧ r.op = 0x07 ∧ t.rPix = some (encodeRgb r.rgb) := by
  cases h with
  | held | waitOver _ | present _ _ _ _ => exact absurd rfl hne
  | script _ _ _ _ _ hm => exact absurd (scriptStep_rPix hm) hne
  | reset hb => exact absurd hb hn
  | accept r hs hw hh hr ha =>
    cases ha with
    | encode hop => exact ⟨hs, hw, hh, r, hr, hop, rfl⟩
    | fault | draw | begin | display => exact absurd rfl hne

/-- A wait ends only by the agent it belongs to (10_state.md R33). -/
theorem Stepped.wait_over {s t : State} (h : Stepped s t) (hn : NoReset s) (hw : s.wait ≠ .none)
    (hne : t.wait ≠ s.wait) :
    t.wait = .none ∧ ((s.wait = .tx ∧ Moves .xport s) ∨ ∃ d, s.wait = .delay d ∧ Moves .timer s) := by
  cases h with
  | held | present _ _ _ _ => exact absurd rfl hne
  | script _ _ _ hw' => exact absurd hw' hw
  | accept _ _ hw' => exact absurd hw' hw
  | waitOver hover => exact ⟨rfl, hover⟩
  | reset hb => exact absurd hb hn

/-- A wait begins only by the script step of a micro-op that waits (10_state.md R33). -/
theorem Stepped.wait_begun {s t : State} (h : Stepped s t) (hw : s.wait = .none) (hne : t.wait ≠ .none) :
    s.halted = false ∧ ∃ m rest, s.script = m :: rest ∧ t.wait = m.waits := by
  cases h with
  | held | present _ _ _ _ => exact absurd hw hne
  | script m rest hs _ hh hm =>
    obtain ⟨-, hwaits⟩ := microOp_lines hm hw
    exact ⟨hh, m, rest, hs, hwaits⟩
  | accept _ _ _ _ _ ha => exact absurd (ha.wait.trans hw) hne
  | waitOver _ | reset _ => exact absurd rfl hne

/-- A pending request stays, or SEQ accepts it (10_state.md R31). -/
theorem Stepped.req_held {s t : State} (h : Stepped s t) (hn : NoReset s) {r : Request} (hr : s.req = some r) :
    t.host = s.host ∧ (t.req = some r ∨ s.script = [] ∧ s.wait = .none ∧ s.halted = false ∧ t.req = none) := by
  cases h with
  | held | waitOver _ => exact ⟨rfl, .inl hr⟩
  | script _ _ _ _ _ hm => exact ⟨scriptStep_host hm, .inl ((scriptStep_req hm).trans hr)⟩
  | accept _ hs hw hh _ ha => exact ⟨ha.host, .inr ⟨hs, hw, hh, ha.req⟩⟩
  | present _ _ hnone => rw [hr] at hnone; cases hnone
  | reset hb => exact absurd hb hn

/-- REQ is filled only by HOST, with its next request (10_state.md R34). -/
theorem Stepped.req_presented {s t : State} (h : Stepped s t) {r : Request} (hs : s.req = none)
    (ht : t.req = some r) : s.host = r :: t.host := by
  cases h with
  | held | waitOver _ => rw [hs] at ht; cases ht
  | script _ _ _ _ _ hm => rw [scriptStep_req hm, hs] at ht; cases ht
  | accept _ _ _ _ _ ha => rw [ha.req] at ht; cases ht
  | present r' rest _ hhost => cases ht; exact hhost
  | reset _ => cases ht

/-- HOST's presenting turn with an empty port: REQ takes HOST's next request. -/
theorem step_hostPresents {s : State} {ts : List Turn} {r : Request} {rest : List Request}
    (hturns : s.turns = .hostPresents :: ts) (hr : s.req = none) (hh : s.host = r :: rest) :
    step s = .next { s with req := some r, host := rest, turns := ts } := by
  rw [step_of_turn hturns, turn, hostPresents, hr, hh]

/-- With a request pending, or none left, HOST's presenting turn does nothing. -/
theorem step_hostPresents_held {s : State} {ts : List Turn} (hturns : s.turns = .hostPresents :: ts)
    (h : s.req ≠ none ∨ s.host = []) : step s = .next { s with turns := ts } := by
  rw [step_of_turn hturns, turn]
  rcases hostPresents_cases { s with turns := ts } with hc | ⟨r, rest, hr, hh, -⟩
  · rw [hc]
  · rcases h with hne | hnil
    · exact absurd hr hne
    · rw [hnil] at hh; cases hh

/-! ### The obligations -/

/-- Settles O60: R_PIX, the end of a wait and its beginning, each read off the cases of the step. -/
theorem onlyEncodeWritesRPixAndOnlyTheirAgentsEndWaits :
    Obligations.OnlyEncodeWritesRPixAndOnlyTheirAgentsEndWaits := by
  intro s t hn hstep
  have h := stepped_of_next hstep
  refine ⟨h.rPix hn, fun htx hne => ?_, fun d hd hne => ?_, h.wait_begun⟩
  · obtain ⟨hnone, ⟨-, hxport⟩ | ⟨d, hd, -⟩⟩ := h.wait_over hn (by simp [htx]) (by rwa [htx])
    · exact ⟨hnone, hxport⟩
    · rw [htx] at hd; cases hd
  · obtain ⟨hnone, ⟨htx, -⟩ | ⟨_, -, htimer⟩⟩ := h.wait_over hn (by simp [hd]) (by rwa [hd])
    · rw [hd] at htx; cases htx
    · exact ⟨hnone, htimer⟩

/-- Settles O19: REQ is emptied by acceptance and filled by HOST only, whose listed turn is the step. -/
theorem aPendingRequestIsHeldUntilAccepted : Obligations.APendingRequestIsHeldUntilAccepted := by
  refine ⟨fun s t hn hstep => ?_, fun s ts hturns =>
    ⟨fun r rest => step_hostPresents hturns, step_hostPresents_held hturns⟩⟩
  have h := stepped_of_next hstep
  refine ⟨fun r hr hne => ?_, fun r => h.req_presented, fun hne => ?_⟩
  · obtain ⟨-, hheld⟩ := h.req_held hn hr
    exact hheld.resolve_left hne
  · obtain ⟨r, hr⟩ := Option.ne_none_iff_exists'.mp hne
    obtain ⟨hhost, -⟩ := h.req_held hn hr
    exact hhost

/-- Settles O40: FB is written by CLEAR_FB's script step and by the acceptance of a drawing request. -/
theorem frameBufferChangesOnlyByDrawingOrClearing : Obligations.FrameBufferChangesOnlyByDrawingOrClearing := by
  intro s t hn hstep hne
  cases stepped_of_next hstep with
  | held | waitOver _ | present _ _ _ _ => exact absurd rfl hne
  | reset hb => exact absurd hb hn
  | script m rest hs hw hh hm =>
    rcases microOp_fb hm with hfb | ⟨p, rfl, -⟩
    · exact absurd hfb hne
    · exact ⟨hw, hh, .inl ⟨p, rest, hs⟩⟩
  | accept r hs hw hh hr ha =>
    cases ha with
    | draw fb' hop hphase _ => exact ⟨hw, hh, .inr ⟨hs, r, hr, hop, hphase⟩⟩
    | fault | encode | begin | display => exact absurd rfl hne

/-- Settles O45: FAULT is written by an acceptance that raises a fault, and by nothing else. -/
theorem faultEntryIsPrecise : Obligations.FaultEntryIsPrecise := by
  intro s t hn hstep hne
  cases stepped_of_next hstep with
  | held | waitOver _ | present _ _ _ _ => exact absurd rfl hne
  | reset hb => exact absurd hb hn
  | script _ _ _ _ _ hm => exact absurd (scriptStep_fault hm) hne
  | accept r hs hw hh hr ha =>
    cases ha with
    | fault c => exact ⟨(busy_eq_false_iff s).mpr ⟨hs, hw⟩, hh, by simp [hr], c, rfl⟩
    | encode | draw | begin | display => exact absurd rfl hne

/-- Settles O46: a halted block has no script step and accepts nothing. -/
theorem haltedBlockIsQuiescent : Obligations.HaltedBlockIsQuiescent := by
  intro s t hhalted hn hstep
  cases stepped_of_next hstep with
  | held => exact ⟨rfl, fun _ hr => hr, .inl rfl⟩
  | waitOver _ => exact ⟨rfl, fun _ hr => hr, .inr rfl⟩
  | present r rest hr _ => exact ⟨rfl, by simp [hr], .inl rfl⟩
  | script _ _ _ _ hh => rw [hh] at hhalted; cases hhalted
  | accept _ _ _ hh => rw [hh] at hhalted; cases hhalted
  | reset hb => exact absurd hb hn

end Sys2Proof.Machine

/-! ## Decoders and encoders (30_encoding.md sections 1 and 2) -/

namespace Sys2Proof

/-! ### Records -/

/-- Each field of a record is cut from its own bits of the record's number (log 3). -/
theorem Request.ofNat_toNat (r : Request) : Request.ofNat r.toNat = r := by
  obtain ⟨op, x, y, wd, ht, pix, rgb⟩ := r
  have cut : ∀ len start, BitVec.ofNat len (Request.toNat ⟨op, x, y, wd, ht, pix, rgb⟩ >>> start) =
      (rgb ++ pix ++ ht ++ wd ++ y ++ x ++ op).extractLsb' start len := fun _ _ => rfl
  have cut0 : BitVec.ofNat 8 (Request.toNat ⟨op, x, y, wd, ht, pix, rgb⟩) =
      (rgb ++ pix ++ ht ++ wd ++ y ++ x ++ op).extractLsb' 0 8 := rfl
  simp [-Nat.reduceAdd, Request.ofNat, cut, cut0, BitVec.extractLsb'_append_eq_of_le,
    BitVec.extractLsb'_append_eq_of_add_le]

theorem Request.toNat_lt (r : Request) : r.toNat < 256 ^ recordBytes :=
  BitVec.isLt (r.rgb ++ r.pix ++ r.ht ++ r.wd ++ r.y ++ r.x ++ r.op)

/-- The 23 bytes of a record decode as the record does. -/
theorem decodeRecordBytes_bytesOfNat (r : Request) :
    decodeRecordBytes (bytesOfNat recordBytes r.toNat) = decodeRequest r := by
  rw [decodeRecordBytes, length_bytesOfNat, if_pos rfl, natOfBytes_bytesOfNat, Nat.mod_eq_of_lt r.toNat_lt,
    Request.ofNat_toNat]

/-- The seven rows of the request map (30_encoding.md R71). -/
theorem decodeRequest_rows (r : Request) :
    (r.op = 0x01 → decodeRequest r = .ok .begin) ∧
    (r.op = 0x02 → decodeRequest r = .ok .display) ∧
    (r.op = 0x03 → decodeRequest r = .ok (.clear r.pix)) ∧
    (r.op = 0x04 → decodeRequest r = .ok (.drawPoint r.x r.y r.pix)) ∧
    (r.op = 0x05 → decodeRequest r = .ok (.drawRectOutline r.x r.y r.wd r.ht r.pix)) ∧
    (r.op = 0x06 → decodeRequest r = .ok (.fillRect r.x r.y r.wd r.ht r.pix)) ∧
    (r.op = 0x07 → decodeRequest r = .ok (.encode r.rgb)) := by
  refine ⟨?_, ?_, ?_, ?_, ?_, ?_, ?_⟩ <;> exact fun h => by simp [decodeRequest, h]

/-- Every OP from 1 to 7 has its row. -/
theorem decodeRequest_of_legal {r : Request} (h1 : 1 ≤ r.op.toNat) (h7 : r.op.toNat ≤ 7) :
    ∃ i, decodeRequest r = .ok i := by
  obtain ⟨b1, b2, b3, b4, b5, b6, b7⟩ := decodeRequest_rows r
  have hop : r.op = 1 ∨ r.op = 2 ∨ r.op = 3 ∨ r.op = 4 ∨ r.op = 5 ∨ r.op = 6 ∨ r.op = 7 := by bv_omega
  rcases hop with h | h | h | h | h | h | h
  · exact ⟨_, b1 h⟩
  · exact ⟨_, b2 h⟩
  · exact ⟨_, b3 h⟩
  · exact ⟨_, b4 h⟩
  · exact ⟨_, b5 h⟩
  · exact ⟨_, b6 h⟩
  · exact ⟨_, b7 h⟩

theorem decodeRequest_ok_iff (r : Request) :
    (∃ i, decodeRequest r = .ok i) ↔ 1 ≤ r.op.toNat ∧ r.op.toNat ≤ 7 := by
  constructor
  · rintro ⟨i, hi⟩
    by_contra hop
    rw [Machine.decodeRequest_illegal (by omega)] at hi
    cases hi
  · exact fun ⟨h1, h7⟩ => decodeRequest_of_legal h1 h7

/-! ### Wire commands -/

/-- The rows of the wire command map: an opcode, the length of its payload, and the decoder of the payload
(30_encoding.md R77, R87). -/
def wireRows (o : Opcodes) : List (Byte × Nat × (List Byte → Except DecodeError Instr)) :=
  [(o.swreset, 0, decodeNoPayload o.swreset .swreset), (o.slpout, 0, decodeNoPayload o.slpout .slpout),
   (o.madctl, 1, decodeOneByte o.madctl .madctl), (o.colmod, 1, decodeOneByte o.colmod .colmod),
   (o.invctr, 1, decodeOneByte o.invctr .invctr), (o.dispon, 0, decodeNoPayload o.dispon .dispon),
   (o.caset, 4, decodeWindow o.caset .caset), (o.raset, 4, decodeWindow o.raset .raset),
   (o.ramwr, 0, decodeNoPayload o.ramwr .ramwr)]

/-- With distinct opcodes no earlier row takes an opcode away from its own (30_encoding.md R79). -/
theorem decodeWire_of_row {c : Config} (hnd : c.opc.all.Nodup) {op : Byte} {n : Nat}
    {dec : List Byte → Except DecodeError Instr} (h : (op, n, dec) ∈ wireRows c.opc) (payload : List Byte) :
    decodeWire c (op :: payload) = dec payload := by
  have hne : c.opc.all.Pairwise (fun a b => a ≠ b ∧ b ≠ a) := hnd.imp fun h => ⟨h, h.symm⟩
  simp only [Opcodes.all, List.pairwise_cons, List.mem_cons, forall_eq_or_imp] at hne
  simp only [wireRows, List.mem_cons, Prod.mk.injEq, List.not_mem_nil, or_false] at h
  rcases h with ⟨rfl, -, rfl⟩ | ⟨rfl, -, rfl⟩ | ⟨rfl, -, rfl⟩ | ⟨rfl, -, rfl⟩ | ⟨rfl, -, rfl⟩ | ⟨rfl, -, rfl⟩ |
    ⟨rfl, -, rfl⟩ | ⟨rfl, -, rfl⟩ | ⟨rfl, -, rfl⟩ <;> simp [decodeWire, hne]

theorem decodeWire_unknown {c : Config} {op : Byte} (h : op ∉ c.opc.all) (payload : List Byte) :
    decodeWire c (op :: payload) = .error (.unknownOpcode op) := by
  simp only [Opcodes.all, List.mem_cons, List.not_mem_nil, or_false, not_or] at h
  simp [decodeWire, h]

/-- A payload decoder takes every payload of one length and refuses every other length by name. -/
def TakesLength (op : Byte) (n : Nat) (dec : List Byte → Except DecodeError Instr) : Prop :=
  ∀ payload : List Byte, (payload.length = n → ∃ i, dec payload = .ok i) ∧
    (payload.length ≠ n → dec payload = .error (.payloadLength op payload.length))

theorem takesLength_noPayload (op : Byte) (i : Instr) : TakesLength op 0 (decodeNoPayload op i) := by
  intro payload
  match payload with
  | [] => simp [decodeNoPayload]
  | _ :: _ => simp [decodeNoPayload]

theorem takesLength_oneByte (op : Byte) (f : Byte → Instr) : TakesLength op 1 (decodeOneByte op f) := by
  intro payload
  match payload with
  | [] => simp [decodeOneByte]
  | [_] => simp [decodeOneByte]
  | _ :: _ :: _ => simp [decodeOneByte]

theorem takesLength_window (op : Byte) (f : BitVec 16 → BitVec 16 → Instr) : TakesLength op 4 (decodeWindow op f) := by
  intro payload
  match payload with
  | [] => simp [decodeWindow]
  | [_] => simp [decodeWindow]
  | [_, _] => simp [decodeWindow]
  | [_, _, _] => simp [decodeWindow]
  | [_, _, _, _] => simp [decodeWindow]
  | _ :: _ :: _ :: _ :: _ :: _ => simp [decodeWindow]

theorem takesLength_of_row {o : Opcodes} {op : Byte} {n : Nat} {dec : List Byte → Except DecodeError Instr}
    (h : (op, n, dec) ∈ wireRows o) : TakesLength op n dec := by
  simp only [wireRows, List.mem_cons, Prod.mk.injEq, List.not_mem_nil, or_false] at h
  rcases h with ⟨rfl, rfl, rfl⟩ | ⟨rfl, rfl, rfl⟩ | ⟨rfl, rfl, rfl⟩ | ⟨rfl, rfl, rfl⟩ | ⟨rfl, rfl, rfl⟩ |
    ⟨rfl, rfl, rfl⟩ | ⟨rfl, rfl, rfl⟩ | ⟨rfl, rfl, rfl⟩ | ⟨rfl, rfl, rfl⟩
  · exact takesLength_noPayload _ _
  · exact takesLength_noPayload _ _
  · exact takesLength_oneByte _ _
  · exact takesLength_oneByte _ _
  · exact takesLength_oneByte _ _
  · exact takesLength_noPayload _ _
  · exact takesLength_window _ _
  · exact takesLength_window _ _
  · exact takesLength_noPayload _ _

/-- A window's bytes give back its bounds (30_encoding.md R80). -/
theorem decodeWindow_windowPayload (op : Byte) (f : BitVec 16 → BitVec 16 → Instr) (a b : BitVec 16) :
    decodeWindow op f (windowPayload a b) = .ok (f a b) := by
  simp [windowPayload, decodeWindow]

/-- The bytes of a wire command decode to it. -/
theorem decodeWire_encode {c : Config} (hnd : c.opc.all.Nodup) {i : Instr} {bytes : List Byte}
    (h : encode c i = .command bytes) : decodeWire c bytes = .ok i := by
  have row {op n dec} (k : Nat) (h : (wireRows c.opc)[k]? = some (op, n, dec)) (payload : List Byte) :
      decodeWire c (op :: payload) = dec payload := decodeWire_of_row hnd (List.mem_of_getElem? h) payload
  cases i with
  | begin | display | clear | drawPoint | drawRectOutline | fillRect | encode => cases h
  | swreset => cases h; exact (row 0 rfl _).trans rfl
  | slpout => cases h; exact (row 1 rfl _).trans rfl
  | madctl v => cases h; exact (row 2 rfl _).trans rfl
  | colmod v => cases h; exact (row 3 rfl _).trans rfl
  | invctr v => cases h; exact (row 4 rfl _).trans rfl
  | dispon => cases h; exact (row 5 rfl _).trans rfl
  | caset a b => cases h; exact (row 6 rfl _).trans (decodeWindow_windowPayload _ _ a b)
  | raset a b => cases h; exact (row 7 rfl _).trans (decodeWindow_windowPayload _ _ a b)
  | ramwr => cases h; exact (row 8 rfl _).trans rfl

/-- The record of a request decodes to it. -/
theorem decodeRequest_encode {c : Config} {i : Instr} {r : Request} (h : encode c i = .record r) :
    decodeRequest r = .ok i := by
  cases i with
  | begin | display | clear | drawPoint | drawRectOutline | fillRect | encode => cases h; rfl
  | _ => cases h

/-! ### The obligations -/

/-- Settles O12: a record is given back field by field, from its bytes too; a wire command by its own row of the map. -/
theorem decodingAnEncodedInstructionGivesItBack : Obligations.DecodingAnEncodedInstructionGivesItBack := by
  intro c i hnd
  split
  · rename_i r h
    exact ⟨(decodeRecordBytes_bytesOfNat r).trans (decodeRequest_encode h), decodeRequest_encode h⟩
  · rename_i bytes h
    exact decodeWire_encode hnd h

/-- Settles O13: the seven rows, and an OP outside them is refused. -/
theorem exactlySevenRequestCodesAreLegal : Obligations.ExactlySevenRequestCodesAreLegal := by
  intro r
  obtain ⟨b1, b2, b3, b4, b5, b6, b7⟩ := decodeRequest_rows r
  exact ⟨b1, b2, b3, b4, b5, b6, b7, decodeRequest_ok_iff r, Machine.decodeRequest_illegal⟩

/-- Settles O59: the nine opcodes of the statement are the rows of the map, each with its payload length. -/
theorem theWireDecoderRefusesOtherOpcodesAndLengths : Obligations.TheWireDecoderRefusesOtherOpcodesAndLengths := by
  intro c op payload hnd
  refine ⟨fun hop => decodeWire_unknown hop payload, fun n hmem => ?_, rfl⟩
  obtain ⟨⟨_, _, dec⟩, hrow, heq⟩ := List.mem_map.mp
    (show (op, n) ∈ (wireRows c.opc).map fun row => (row.1, row.2.1) from hmem)
  cases heq
  rw [decodeWire_of_row hnd hrow]
  exact takesLength_of_row hrow payload

/-- Settles O14: the six words, evaluated. -/
theorem writtenOutWordsDecode : Obligations.WrittenOutWordsDecode := by
  unfold Obligations.WrittenOutWordsDecode
  decide

end Sys2Proof

/-! ## The step of each agent and of each instruction (10_state.md section 6, 42_wire_protocol.md sections 1 to 3) -/

namespace Sys2Proof.Machine

/-! ### SEQ's step -/

/-- Where SEQ moves and has a step, the step is SEQ's turn after its turn is used up. -/
theorem step_seqTurn {s : State} {ts : List Turn} (hmoves : SeqMoves s ts) (henabled : seqEnabled s = true) :
    step s = seqTurn { s with turns := ts } := by
  rcases hmoves with hturns | ⟨hturns, rfl⟩
  · exact step_of_turn hturns
  · have hsame : { s with turns := [] } = s := by rw [← hturns]
    rw [step, nextStep, hturns, hsame]
    simp only [defaultTurn, henabled, if_true, turn]

theorem step_script_of_seqMoves {s : State} {ts : List Turn} {m : MicroOp} {rest : List MicroOp}
    (hmoves : SeqMoves s ts) (hw : s.wait = .none) (hh : s.halted = false) (hs : s.script = m :: rest) :
    step s = microOp m { s with script := rest, turns := ts } := by
  rw [step_seqTurn hmoves (seqEnabled_of_script hw hh hs)]
  exact (seqTurn_of_script (s := { s with turns := ts }) hw hh hs).trans (scriptStep_eq hs)

/-- Settles O18: an enabled SEQ performs the head micro-op, a held one uses its turn up. -/
theorem scriptStepPerformsTheHeadMicroOp : Obligations.ScriptStepPerformsTheHeadMicroOp :=
  fun _ _ _ _ hs => ⟨fun hw hh hmoves => step_script_of_seqMoves hmoves hw hh hs,
    fun hheld hturns => (step_of_turn hturns).trans (seqTurn_held hheld)⟩

/-- Settles O16: the step is the acceptance, which runs what the record decodes to. -/
theorem stepRunsTheDecodedRequest : Obligations.StepRunsTheDecodedRequest := by
  intro s ts r i hmoves hw hh hs hr hdecode
  rw [step_accept_of_seqMoves hmoves hw hh hs hr, accept, hdecode]

/-- Settles O17: beginning a frame performs its head micro-op, and so does the script step. -/
theorem stepRunsTheDecodedWireCommand : Obligations.StepRunsTheDecodedWireCommand := by
  intro s ts i rest _ hmoves hw hh hi hs
  obtain ⟨op, payload, hencode⟩ := encode_of_isWire (c := s.cfg) hi
  obtain ⟨tail, htail⟩ := cmdFrame_cons op payload
  have hframe : wireFrame s.cfg i ++ rest = .setCs .asserted :: (tail ++ rest) := by
    rw [wireFrame_of_encode hencode, htail, List.cons_append]
  rw [step_script_of_seqMoves hmoves hw hh (hs.trans hframe), exec_wire hi]
  exact (startFrame_eq_microOp { s with turns := ts } hframe).symm

/-! ### Requests that load no script -/

theorem Accepted.script {r : Request} {s t : State} (h : Accepted r s t) (h1 : r.op ≠ 0x01) (h2 : r.op ≠ 0x02) :
    t.script = s.script := by
  cases h with
  | fault | encode | draw => rfl
  | begin hop => exact absurd hop h1
  | display hop => exact absurd hop h2

/-- Settles O20: only BEGIN and DISPLAY load a script, and no acceptance waits, emits or moves a line. -/
theorem otherRequestsCompleteInTheirAcceptingStep : Obligations.OtherRequestsCompleteInTheirAcceptingStep := by
  intro s ts r hmoves hw hh hs hr h1 h2
  obtain ⟨t, ht, ha⟩ := exists_accepted r { s with turns := ts }
  have hidle : t.busy = false := (busy_eq_false_iff t).mpr ⟨(ha.script h1 h2).trans hs, ha.wait.trans hw⟩
  exact ⟨t, (step_accept_of_seqMoves hmoves hw hh hs hr).trans ht, ha.req, hidle, congrArg List.reverse ha.traceRev,
    ha.lines⟩

/-! ### Micro-operations -/

@[simp] theorem tx_trace (b : Byte) (s : State) : (tx b s).trace = s.trace ++ [.byte b s.dcOut s.rate] :=
  emit_trace _ _

@[simp] theorem startDelay_trace (d : DelayName) (s : State) : (startDelay d s).trace = s.trace ++ [.delay d] :=
  emit_trace _ _

@[simp] theorem setRate_trace (r : Rate) (s : State) : (setRate r s).trace = s.trace ++ [.rate r] := emit_trace _ _

/-- Settles O23: each of the four writes its own fields, and all but SET_PHASE emit. -/
theorem byteDelayRateAndPhaseMicroOps : Obligations.ByteDelayRateAndPhaseMicroOps :=
  fun s => ⟨fun b => ⟨tx b s, microOp_tx b s, tx_trace b s, rfl⟩,
    fun d => ⟨startDelay d s, microOp_wait d s, startDelay_trace d s, rfl⟩,
    fun r => ⟨setRate r s, microOp_setRate r s, setRate_trace r s, rfl⟩,
    fun p => microOp_setPhase p s⟩

theorem txPix_of_none {k : Nat} {s : State} (hk : k / 2 < s.cfg.cells) (h : Fb.read (k / 2) s.fb = none) :
    txPix k s = .fault (.fbNoValue (k / 2)) := by
  rw [txPix, memRead, if_pos hk, h]

/-- Settles O25: the cell `k >> 1` is read, and its byte is sent as TX sends a byte. -/
theorem streamByteIsTheCellsByte : Obligations.StreamByteIsTheCellsByte := by
  intro s k hk
  have hcell : k / 2 < s.cfg.cells := by omega
  rw [Nat.shiftRight_one, Nat.and_one_is_mod]
  refine ⟨fun p hp => ?_, txPix_of_none hcell⟩
  refine ⟨_, _, txPix_of_read hcell hp, tx_trace _ _, rfl, fun horder => ?_, fun horder => ?_⟩
  · rw [horder, pixelByte]
  · rw [horder, pixelByte]

/-! ### HOST and block reset -/

/-- Settles O28: a read answers a value of the state, and HOST's reading turn is the step. -/
theorem hostReadsHaveNoSideEffect : Obligations.HostReadsHaveNoSideEffect :=
  fun _ _ => ⟨rfl, fun _ hv => hv, fun hnone => hnone, fun _ hturns => step_of_turn hturns⟩

/-- Settles O2: `blockReset` copies the five. -/
theorem blockResetKeepsWhatIsNotLcdbs : Obligations.BlockResetKeepsWhatIsNotLcdbs := by
  intro s t ts hturns hstep
  rw [step_of_turn hturns] at hstep
  cases hstep
  exact ⟨rfl, rfl, rfl, rfl, rfl⟩

/-! ### Hangs -/

/-- A wait that no one ends: no turn is listed, and the agent WAIT belongs to is never ready. -/
def Stuck (s : State) : Prop :=
  s.turns = [] ∧ ((s.wait = .tx ∧ s.xportReady = false) ∨ (∃ d, s.wait = .delay d) ∧ s.timerReady = false)

/-- In a stuck block only HOST moves. -/
theorem Stuck.step_eq {s : State} (h : Stuck s) : step s = .next (hostPresents s) := by
  obtain ⟨hturns, ⟨hw, hready⟩ | ⟨⟨d, hw⟩, hready⟩⟩ := h
  · simp [step, nextStep, hturns, defaultTurn, seqEnabled, hw, hready, turn]
  · simp [step, nextStep, hturns, defaultTurn, seqEnabled, hw, hready, turn]

/-- A stuck block stays as it is for any number of steps, but for what HOST presents. -/
theorem Stuck.run {s : State} (h : Stuck s) (n : Nat) :
    ∃ q rest, runSteps n s = .next { s with req := q, host := rest } := by
  induction n generalizing s with
  | zero => exact ⟨s.req, s.host, rfl⟩
  | succ n ih =>
    rw [runSteps_succ n h.step_eq]
    rcases hostPresents_cases s with hsame | ⟨r, rest, -, -, hpresents⟩
    · rw [hsame]
      exact ih h
    · rw [hpresents]
      exact ih (s := { s with req := some r, host := rest }) h

theorem Stuck.hangs {s : State} (h : Stuck s) (n : Nat) :
    ∃ t, runSteps n s = .next t ∧ t.wait = s.wait ∧ t.script = s.script ∧ t.trace = s.trace ∧
      t.fault = s.fault ∧ t.fb = s.fb ∧ t.lines = s.lines := by
  obtain ⟨q, rest, hrun⟩ := h.run n
  exact ⟨_, hrun, rfl, rfl, rfl, rfl, rfl, rfl⟩

/-- Settles O26: XPORT's listed turn is the step; a TX wait with XPORT never ready is stuck. -/
theorem xportCompletesOrSeqHangs : Obligations.XportCompletesOrSeqHangs := by
  refine ⟨fun s ts hturns => ?_, fun s n hw hturns hready => ?_⟩
  · rw [step_of_turn hturns, turn, xportTurn_eq]
  · have hstuck : Stuck s := ⟨hturns, .inl ⟨hw, hready⟩⟩
    rw [← hw]
    exact hstuck.hangs n

/-- Settles O27: TIMER's listed turn is the step; a delay with TIMER never ready is stuck. -/
theorem timerExpiresOrSeqHangs : Obligations.TimerExpiresOrSeqHangs := by
  refine ⟨fun s ts hturns => ?_, fun s n d hw hturns hready => ?_⟩
  · rw [step_of_turn hturns, turn, timerTurn_eq]
  · have hstuck : Stuck s := ⟨hturns, .inr ⟨⟨d, hw⟩, hready⟩⟩
    rw [← hw]
    exact hstuck.hangs n

/-! ### The wire commands -/

/-- A wire command asserts chip-select and queues the rest of its frame ahead of SCRIPT (log 1). -/
theorem exec_begins_frame {i : Instr} {s : State} {tail : List MicroOp} (hi : i.isWire = true)
    (hframe : wireFrame s.cfg i = .setCs .asserted :: tail) :
    ∃ t, exec i s = .next t ∧ t.trace = s.trace ++ [.cs .asserted] ∧
      t = { s with csOut := .asserted, traceRev := t.traceRev, script := tail ++ s.script } :=
  ⟨setCs .asserted { s with script := tail ++ s.script }, by rw [exec_wire hi, hframe]; rfl, setCs_trace _ _, rfl⟩

/-- Settles O47: the frames without payload. -/
theorem commandsWithoutPayloadBeginTheirFrame : Obligations.CommandsWithoutPayloadBeginTheirFrame := by
  intro s i op hmem
  simp only [List.mem_cons, Prod.mk.injEq, List.not_mem_nil, or_false] at hmem
  rcases hmem with ⟨rfl, rfl⟩ | ⟨rfl, rfl⟩ | ⟨rfl, rfl⟩ | ⟨rfl, rfl⟩ <;> exact exec_begins_frame rfl rfl

/-- Settles O48: the frames with one payload byte. -/
theorem oneByteCommandsBeginTheirFrame : Obligations.OneByteCommandsBeginTheirFrame := by
  intro s v i op hmem
  simp only [List.mem_cons, Prod.mk.injEq, List.not_mem_nil, or_false] at hmem
  rcases hmem with ⟨rfl, rfl⟩ | ⟨rfl, rfl⟩ | ⟨rfl, rfl⟩ <;> exact exec_begins_frame rfl rfl

/-- Settles O49: the frames with a window's four bytes. -/
theorem windowCommandsBeginTheirFrame : Obligations.WindowCommandsBeginTheirFrame := by
  intro s a b i op hmem
  simp only [List.mem_cons, Prod.mk.injEq, List.not_mem_nil, or_false] at hmem
  rcases hmem with ⟨rfl, rfl⟩ | ⟨rfl, rfl⟩ <;> exact exec_begins_frame rfl rfl

/-! ### BEGIN and DISPLAY -/

theorem exec_begin_of_uninit {s : State} (h : s.phase = .uninit) :
    exec .begin s = .next { s with script := beginScript s.cfg } := if_pos h

theorem exec_display_of_ne {s : State} (h : s.phase ≠ .uninit) :
    exec .display s = .next { s with script := displayScript s.cfg } :=
  (exec_display s).trans (afterBegin_of_ne h)

/-- Settles O51: the script is the definition's, its last pixel the encoded black. -/
theorem beginLoadsItsScript : Obligations.BeginLoadsItsScript :=
  fun s hp => ⟨beginScript s.cfg, exec_begin_of_uninit hp, beginScript_length _, by
    rw [beginScript, pixBlack, encodeRgb_black]; rfl⟩

theorem hi8_ofNat (n : Nat) : hi8 (BitVec.ofNat 16 n) = BitVec.ofNat 8 (n / 256) := by
  apply BitVec.eq_of_toNat_eq
  rw [hi8, BitVec.extractLsb'_toNat, BitVec.toNat_ofNat, BitVec.toNat_ofNat, Nat.shiftRight_eq_div_pow]
  omega

theorem lo8_ofNat (n : Nat) : lo8 (BitVec.ofNat 16 n) = BitVec.ofNat 8 (n % 256) := by
  apply BitVec.eq_of_toNat_eq
  simp [lo8, BitVec.extractLsb'_toNat]

/-- The bounds on the parameters that R7 asks for. -/
theorem Config.wf_bounds {c : Config} (h : c.wf = true) :
    1 ≤ c.width ∧ 1 ≤ c.height ∧ c.width - 1 + c.colOffset ≤ 0xFFFF ∧ c.height - 1 + c.rowOffset ≤ 0xFFFF := by
  simp only [Config.wf, Bool.and_eq_true, decide_eq_true_eq] at h
  obtain ⟨⟨⟨⟨⟨⟨hw, hh⟩, hcol⟩, hrow⟩, -⟩, -⟩, -⟩ := h
  exact ⟨hw, hh, hcol, hrow⟩

/-- Settles O52: legal bounds fit 16 bits, and the window's bytes are those of the offsets. -/
theorem displayLoadsItsScript : Obligations.DisplayLoadsItsScript := by
  intro s hp hwf
  obtain ⟨hw, hh, hcol, hrow⟩ := Config.wf_bounds hwf
  refine ⟨s.cfg.colEnd, s.cfg.rowEnd, ?_, ?_, ?_⟩
  · rw [Config.colEnd, BitVec.toNat_ofNat, Nat.mod_eq_of_lt (by omega)]
  · rw [Config.rowEnd, BitVec.toNat_ofNat, Nat.mod_eq_of_lt (by omega)]
  · rw [exec_display_of_ne hp, ← hi8_ofNat, ← lo8_ofNat, ← hi8_ofNat, ← lo8_ofNat]
    simp [displayScript, cmdFrame, windowPayload, streamScript, Config.colStart, Config.rowStart, Config.cells]

end Sys2Proof.Machine

/-! ## The drawing requests (41_framebuffer.md) -/

namespace Sys2Proof.Machine

/-! ### Cells and their coordinates -/

/-- A cell index is that of its column and row (20_memory.md R50). -/
theorem cell_coords {c : Config} {i : Nat} (h : i < c.cells) :
    0 ≤ cellX c i ∧ cellX c i < c.width ∧ 0 ≤ cellY c i ∧ cellY c i < c.height := by
  have hcells : i < c.width * c.height := h
  have hwidth : 0 < c.width := Nat.pos_of_mul_pos_right (Nat.zero_lt_of_lt hcells)
  have hx : i % c.width < c.width := Nat.mod_lt i hwidth
  have hy : i / c.width < c.height := Nat.div_lt_of_lt_mul hcells
  exact ⟨Int.natCast_nonneg _, Int.ofNat_lt.mpr hx, Int.natCast_nonneg _, Int.ofNat_lt.mpr hy⟩

/-! ### Painting a set of cells -/

/-- The pass over `[i, i + n)` looks at the selection there only. -/
theorem Fb.paintFrom_congr {sel sel' : Nat → Bool} {p : Pixel} (n i : Nat) (fb : Fb)
    (h : ∀ k, i ≤ k → k < i + n → sel k = sel' k) :
    Fb.paintFrom sel p n i fb = Fb.paintFrom sel' p n i fb := by
  induction n generalizing i fb with
  | zero => rfl
  | succ n ih =>
    have hi := h i le_rfl (by omega)
    have hrest fb := ih (i + 1) fb fun k hk hlt => h k (by omega) (by omega)
    cases fb with
    | nil => simp only [Fb.paintFrom, hi, hrest]
    | cons c rest => simp only [Fb.paintFrom, hi, hrest]

theorem Fb.paint_congr {n : Nat} {sel sel' : Nat → Bool} {p : Pixel} (fb : Fb) (h : ∀ k < n, sel k = sel' k) :
    Fb.paint n sel p fb = Fb.paint n sel' p fb :=
  Fb.paintFrom_congr n 0 fb fun k _ hk => h k (by omega)

section Painted

variable {s : State} {cell : Int → Int → Bool} {p : Pixel}

/-- A cell of the buffer takes the pixel exactly when its column and row are in the set. -/
theorem read_paintCells (h : Fb.wf s.cfg.cells s.fb = true) {cx cy : Nat} (hx : cx < s.cfg.width)
    (hy : cy < s.cfg.height) :
    Fb.read (cy * s.cfg.width + cx) (paintCells cell p s).fb =
      if cell cx cy = true then some p else s.cell (cy * s.cfg.width + cx) := by
  rw [paintCells_fb, Fb.read_paint h, cellX_of_index hx, cellY_of_index hx, State.cell]
  simp only [index_lt_cells hx hy, true_and]

theorem read_paintCells_outside (h : Fb.wf s.cfg.cells s.fb = true) {i : Nat} (hi : s.cfg.cells ≤ i) :
    Fb.read i (paintCells cell p s).fb = s.cell i := by
  rw [paintCells_fb, Fb.read_paint h, if_neg (by omega), State.cell]

/-- A set without a cell of the buffer paints nothing. -/
theorem paintCells_eq_self (h : Fb.wf s.cfg.cells s.fb = true)
    (hcell : ∀ cx cy : Int, 0 ≤ cx ∧ cx < s.cfg.width ∧ 0 ≤ cy ∧ cy < s.cfg.height → cell cx cy ≠ true) :
    paintCells cell p s = s := by
  have hfb : (paintCells cell p s).fb = s.fb := by
    refine Fb.ext_of_read (wf_paintCells cell p h) h fun i => ?_
    rw [paintCells_fb, Fb.read_paint h, if_neg]
    rintro ⟨hi, hsel⟩
    exact hcell _ _ (cell_coords hi) hsel
  calc paintCells cell p s = { s with fb := (paintCells cell p s).fb } := rfl
    _ = s := by rw [hfb]

/-- A set with every cell of the buffer paints what CLEAR writes. -/
theorem paintCells_eq_fillAll
    (hcell : ∀ cx cy : Int, 0 ≤ cx ∧ cx < s.cfg.width ∧ 0 ≤ cy ∧ cy < s.cfg.height → cell cx cy = true) :
    paintCells cell p s = fillAll p s := by
  have hfb := Fb.paint_congr (p := p) s.fb fun i hi => hcell _ _ (cell_coords (c := s.cfg) (i := i) hi)
  rw [paintCells, hfb, fillAll]

end Painted

/-! ### The requests once their checks have passed -/

section Passed

variable {s : State} (hp : s.phase ≠ .uninit)

include hp

theorem exec_clear_of_ne (pix : Pixel) : exec (.clear pix) s = .next (fillAll pix s) :=
  (exec_clear pix s).trans (afterBegin_of_ne hp)

theorem exec_drawPoint_of_ne (x y : Coord) (pix : Pixel) :
    exec (.drawPoint x y pix) s = .next (plot (coord x) (coord y) pix s) :=
  (exec_drawPoint x y pix s).trans (afterBegin_of_ne hp)

variable {x y w h : Coord} (hfits : rectFits x y w h = true)

include hfits

theorem exec_drawRectOutline_of_fits (pix : Pixel) :
    exec (.drawRectOutline x y w h pix) s = .next (paintCells (inOutline s.cfg x y w h) pix s) :=
  (exec_drawRectOutline x y w h pix s).trans ((afterBegin_of_ne hp).trans (if_pos hfits))

theorem exec_fillRect_of_fits (pix : Pixel) :
    exec (.fillRect x y w h pix) s = .next (paintCells (inFill s.cfg x y w h) pix s) :=
  (exec_fillRect x y w h pix s).trans ((afterBegin_of_ne hp).trans (if_pos hfits))

end Passed

/-! ### The point -/

/-- The index of a pixel in bounds, as an integer (20_memory.md R50). -/
theorem cellIndex_coe {c : Config} {x y : Int} (hx : 0 ≤ x) (hy : 0 ≤ y) :
    (cellIndex c x y : Int) = y * c.width + x :=
  Int.toNat_of_nonneg (by positivity)

theorem plot_of_inB {s : State} {x y : Int} (p : Pixel) (h : inB s.cfg x y = true) :
    plot x y p s = memWrite (cellIndex s.cfg x y) p s := if_pos h

theorem plot_of_not_inB {s : State} {x y : Int} (p : Pixel) (h : inB s.cfg x y ≠ true) : plot x y p s = s := if_neg h

/-- `InB` (41_framebuffer.md R120). -/
theorem inB_iff (c : Config) (x y : Int) :
    inB c x y = true ↔ (0 ≤ x ∧ x < c.width) ∧ 0 ≤ y ∧ y < c.height := by
  simp only [inB, Bool.and_eq_true, decide_eq_true_eq]
  tauto

/-! ### The obligations -/

/-- Settles O34: after the PHASE check CLEAR is `fillAll`. -/
theorem clearSetsEveryCell : Obligations.ClearSetsEveryCell := by
  intro s pix hp hwf
  refine ⟨(fillAll pix s).fb, exec_clear_of_ne hp pix, wf_fillAll pix hwf, fun i hi => ?_, fun i hi => ?_⟩
  · rw [read_fillAll hwf, if_pos hi]
  · rw [read_fillAll hwf, if_neg (by omega), State.cell, Fb.read_outside hwf hi]

/-- Settles O35: after the PHASE check DRAW_POINT is `plot`, one MemWrite in bounds and nothing outside. -/
theorem drawPointWritesItsCellIffInBounds : Obligations.DrawPointWritesItsCellIffInBounds := by
  intro s x y pix hp hwf
  refine ⟨(plot (coord x) (coord y) pix s).fb, ?_, wf_plot _ _ pix hwf, fun hx0 hxW hy0 hyH i => ?_, fun hout => ?_⟩
  · rw [exec_drawPoint_of_ne hp, ← plot_eq]
  · have hin : inB s.cfg x.toInt y.toInt = true := (inB_iff _ _ _).mpr ⟨⟨hx0, hxW⟩, hy0, hyH⟩
    have hindex : i = cellIndex s.cfg x.toInt y.toInt ↔ (i : Int) = y.toInt * s.cfg.width + x.toInt := by
      rw [← cellIndex_coe hx0 hy0, Int.natCast_inj]
    rw [plot_of_inB pix hin, memWrite_fb, Fb.read_write, if_congr hindex rfl rfl, State.cell]
  · have hnot : inB s.cfg x.toInt y.toInt ≠ true := by
      rw [ne_eq, inB_iff]
      omega
    rw [plot_of_not_inB pix hnot]

/-- Settles O36: after its two checks DRAW_RECT_OUTLINE paints the border's set. -/
theorem drawRectOutlineWritesTheInBoundsBorder : Obligations.DrawRectOutlineWritesTheInBoundsBorder := by
  intro s x y w h pix hp hwf hx hx' hy hy'
  have hfits : rectFits x y w h = true := (rectFits_iff x y w h).mpr ⟨⟨hx, hx'⟩, hy, hy'⟩
  refine ⟨_, exec_drawRectOutline_of_fits hp hfits pix, wf_paintCells _ pix hwf, fun cx cy hcx hcy => ?_,
    fun i => read_paintCells_outside hwf⟩
  refine (read_paintCells hwf hcx hcy).trans (if_congr ?_ rfl rfl)
  rw [inOutline_iff]
  omega

/-- Settles O37: after its two checks FILL_RECT paints the clipped rectangle's set. -/
theorem fillRectWritesTheClippedRectangle : Obligations.FillRectWritesTheClippedRectangle := by
  intro s x y w h pix hp hwf hx hx' hy hy'
  have hfits : rectFits x y w h = true := (rectFits_iff x y w h).mpr ⟨⟨hx, hx'⟩, hy, hy'⟩
  refine ⟨_, exec_fillRect_of_fits hp hfits pix, wf_paintCells _ pix hwf, fun cx cy hcx hcy => ?_,
    fun i => read_paintCells_outside hwf⟩
  refine (read_paintCells hwf hcx hcy).trans (if_congr ?_ rfl rfl)
  rw [inFill_iff]
  omega

/-- Settles O38: with no area, or beyond a side, neither set has a cell of the buffer. -/
theorem rectanglesOutsideTheBufferChangeNothing : Obligations.RectanglesOutsideTheBufferChangeNothing := by
  intro s x y w h pix hp hwf hx hx' hy hy' hout
  have hfits : rectFits x y w h = true := (rectFits_iff x y w h).mpr ⟨⟨hx, hx'⟩, hy, hy'⟩
  constructor
  · rw [exec_fillRect_of_fits hp hfits, paintCells_eq_self hwf]
    intro cx cy _
    rw [ne_eq, inFill_iff]
    omega
  · rw [exec_drawRectOutline_of_fits hp hfits, paintCells_eq_self hwf]
    intro cx cy _
    rw [ne_eq, inOutline_iff]
    omega

/-- A legal dimension is an s32 operand of its own value. -/
theorem toInt_ofNat_of_le {n : Nat} (h : n ≤ 0x10000) : (BitVec.ofNat 32 n).toInt = n := by
  rw [BitVec.toInt_eq_toNat_of_lt]
  · rw [BitVec.toNat_ofNat, Nat.mod_eq_of_lt (by omega)]
  · rw [BitVec.toNat_ofNat]
    omega

/-- FILL_RECT of the whole buffer writes what CLEAR writes (41_framebuffer.md R127). -/
theorem exec_fillRect_whole {s : State} (hp : s.phase ≠ .uninit) (hwf : s.cfg.wf = true) (pix : Pixel) :
    exec (.fillRect 0 0 (BitVec.ofNat 32 s.cfg.width) (BitVec.ofNat 32 s.cfg.height) pix) s =
      .next (fillAll pix s) := by
  obtain ⟨-, -, hcol, hrow⟩ := Config.wf_bounds hwf
  have hwidth := toInt_ofNat_of_le (n := s.cfg.width) (by omega)
  have hheight := toInt_ofNat_of_le (n := s.cfg.height) (by omega)
  have hzero : (0 : Coord).toInt = 0 := rfl
  have hfits : rectFits 0 0 (BitVec.ofNat 32 s.cfg.width) (BitVec.ofNat 32 s.cfg.height) = true := by
    rw [rectFits_iff, hwidth, hheight, hzero]
    omega
  rw [exec_fillRect_of_fits hp hfits, paintCells_eq_fillAll]
  intro cx cy hin
  rw [inFill_iff, hwidth, hheight, hzero]
  omega

/-- Settles O39: the whole buffer's rectangle selects every cell. -/
theorem fillingTheWholeBufferIsClear : Obligations.FillingTheWholeBufferIsClear :=
  fun _ pix hp hwf => (exec_fillRect_whole hp hwf pix).trans (exec_clear_of_ne hp pix).symm

end Sys2Proof.Machine

/-! ## Runs of whole frames and sequences (43_sequences.md, 42_wire_protocol.md sections 1 and 2) -/

namespace Sys2Proof.Machine

/-- Events put on TRACE newest first are appended to it in their own order (log 11). -/
theorem trace_of_traceRev {s t : State} {es : List Event} (h : t.traceRev = es.reverse ++ s.traceRev) :
    t.trace = s.trace ++ es := by
  rw [State.trace, h, List.reverse_append, List.reverse_reverse, State.trace]

/-! ### A wire command's frame -/

/-- A frame at the head of SCRIPT runs to its end (42_wire_protocol.md R160). -/
theorem runSteps_cmdFrame {s : State} {op : Byte} {payload : List Byte} {rest : List MicroOp}
    (hs : s.script = cmdFrame op payload ++ rest) (hw : s.wait = .none) (hh : s.halted = false) (ht : s.turns = [])
    (hx : s.xportReady = true) :
    runSteps ((cmdFrame op payload).length + (op :: payload).length) s = .next { s with
      script := rest, csOut := .released, dcOut := .driven (if payload = [] then .cmd else .data),
      traceRev := ((TraceLine.cmd op payload).events s.rate).reverse ++ s.traceRev } := by
  have hrun := runSteps_script (cmdFrame op payload) rest s hs hw hh ht hx
    (fun ⟨d, hd⟩ => by simpa using mem_cmdFrame hd) (fun p hp => by simpa using mem_cmdFrame hp)
    (fun k hk => by simpa using mem_cmdFrame hk)
  rw [scriptCost_cmdFrame, linesAfter_cmdFrame, eventsOf_cmdFrame] at hrun
  exact hrun

/-- Settles O50: the frame's run, whose events are those of its trace line. -/
theorem aWireCommandRunsToItsWholeFrame : Obligations.AWireCommandRunsToItsWholeFrame := by
  intro s i op payload rest _ hencode hs hw hh ht hx
  rw [wireFrame_of_encode hencode] at hs ⊢
  exact ⟨_, runSteps_cmdFrame hs hw hh ht hx, trace_of_traceRev rfl, rfl⟩

/-! ### BEGIN -/

theorem accept_begin {r : Request} {s : State} (hop : r.op = 0x01) (hp : s.phase = .uninit) :
    accept r s = .next { s with req := none, script := beginScript s.cfg } := by
  obtain ⟨hdecode, -⟩ := decodeRequest_rows r
  rw [accept, hdecode hop]
  exact exec_begin_of_uninit hp

/-- Before CLEAR_FB the BEGIN script has brought any lines to those of an active block. -/
theorem linesAfter_beginScriptHead (c : Config) (l : Lines) : linesAfter (beginScriptHead c) l = activeLines .cmd := rfl

theorem scriptCost_beginScriptHead (c : Config) : scriptCost (beginScriptHead c) = 55 := by
  simp [beginScriptHead, beginScript, cmdFrame, MicroOp.cost, MicroOp.waits]

/-- From SLOW the BEGIN script emits the trace of 43_sequences.md R192. -/
theorem eventsOf_beginScriptHead (c : Config) (fb : Fb) {l : Lines} (h : l.rate = .slow) :
    eventsOf c fb (beginScriptHead c) l = traceOf .slow (beginTrace c) := by
  simp [beginScriptHead, beginScript, cmdFrame, eventsOf, MicroOp.event, MicroOp.onLines, h, traceOf, beginTrace,
    TraceLine.events, invctrValue]

theorem clearFb_not_mem_beginScriptHead (c : Config) (p : Pixel) : .clearFb p ∉ beginScriptHead c := fun h => by
  obtain ⟨hnoClear, -⟩ := mem_beginScriptHead h
  exact hnoClear p rfl

theorem txPix_not_mem_beginScriptHead (c : Config) (k : Nat) : .txPix k ∉ beginScriptHead c := fun h => by
  obtain ⟨-, hnoPix⟩ := mem_beginScriptHead h
  exact hnoPix k rfl

/-- CLEAR_FB at the end of a script is one step (42_wire_protocol.md R158). -/
theorem runSteps_clearFb {s : State} {p : Pixel} (hs : s.script = [.clearFb p]) (hw : s.wait = .none)
    (hh : s.halted = false) (ht : s.turns = []) :
    runSteps 1 s = .next { s with script := [], fb := (fillAll p s).fb } := by
  have hstep := step_script_of_seqMoves (.inr ⟨ht, rfl⟩) hw hh hs
  rw [microOp_clearFb] at hstep
  rw [runSteps_succ 0 hstep, runSteps_zero, fillAll, ht]
  rfl

/-- BEGIN from its acceptance to the end of its script. -/
theorem runSteps_begin {s : State} {r : Request} (hp : s.phase = .uninit) (hs : s.script = [])
    (hw : s.wait = .none) (hh : s.halted = false) (hr : s.req = some r) (hop : r.op = 0x01)
    (ht : s.turns = []) (hx : s.xportReady = true) (hd : s.timerReady = true) :
    runSteps 57 s = .next { s with
      phase := .active, rstOut := .driven .high, csOut := .released, dcOut := .driven .cmd, rate := .fast,
      req := none, script := [], fb := (fillAll pixBlack s).fb,
      traceRev := (eventsOf s.cfg s.fb (beginScriptHead s.cfg) s.lines).reverse ++ s.traceRev } := by
  have haccept := (step_accept hs hw hh hr ht).trans (accept_begin hop hp)
  have hhead := runSteps_script (beginScriptHead s.cfg) [.clearFb pixBlack]
    { s with req := none, script := beginScript s.cfg } (beginScript_eq s.cfg) hw hh ht hx (fun _ => hd)
    (clearFb_not_mem_beginScriptHead s.cfg) (fun k hmem => absurd hmem (txPix_not_mem_beginScriptHead s.cfg k))
  rw [scriptCost_beginScriptHead, linesAfter_beginScriptHead] at hhead
  rw [runSteps_succ 56 haccept, runSteps_add 1 hhead]
  exact runSteps_clearFb rfl hw hh ht

/-- STATUS of an idle, unhalted block in ACTIVE at FAST (10_state.md R35). -/
theorem status_active {s : State} (hp : s.phase = .active) (hrate : s.rate = .fast) (hbusy : s.busy = false)
    (hfault : s.fault = {}) : s.status = 0x000E := by
  have hhalted : s.halted = false := (halted_eq_false_iff s).mpr hfault
  rw [State.status, hp, hrate, hbusy, hhalted, hfault]
  rfl

/-- Settles O53: BEGIN's run; CLEAR_FB, its last micro-op, leaves 0xFFFF in every cell. -/
theorem beginEmitsItsWholeTraceAndEndsActive : Obligations.BeginEmitsItsWholeTraceAndEndsActive := by
  intro s r hp hrate hs hw hh hr hop ht hx hd hwf
  have hevents := eventsOf_beginScriptHead s.cfg s.fb (l := s.lines) hrate
  refine ⟨_, runSteps_begin hp hs hw hh hr hop ht hx hd, (trace_of_traceRev rfl).trans (congrArg _ hevents),
    fun i hi => ?_, ?_, ?_⟩
  · refine (read_fillAll hwf pixBlack i).trans ?_
    rw [if_pos hi, pixBlack, encodeRgb_black]
  · exact status_active rfl rfl ((busy_eq_false_iff _).mpr ⟨rfl, hw⟩) ((halted_eq_false_iff s).mp hh)
  · simp only [hs]

/-- Settles O54: counted on the written-out trace. -/
theorem beginTraceCountsAndOpcodes : Obligations.BeginTraceCountsAndOpcodes :=
  fun _ => ⟨rfl, rfl, rfl, rfl, rfl, rfl⟩

/-! ### DISPLAY -/

theorem accept_display {r : Request} {s : State} (hop : r.op = 0x02) (hp : s.phase ≠ .uninit) :
    accept r s = .next { s with req := none, script := displayScript s.cfg } := by
  obtain ⟨-, hdecode, -⟩ := decodeRequest_rows r
  rw [accept, hdecode hop]
  exact exec_display_of_ne hp

theorem linesAfter_displayScript_eq (c : Config) (l : Lines) :
    linesAfter (displayScript c) l = { l with csOut := .released, dcOut := .driven .data } := by
  simp only [displayScript, streamScript, linesAfter_append, linesAfter_cmdFrame, linesAfter_txPix]
  rfl

/-- The three frames take 33 steps, the stream two a byte and three more. -/
theorem scriptCost_displayScript (c : Config) : scriptCost (displayScript c) = 36 + 4 * c.cells := by
  have hcaset : scriptCost (cmdFrame c.opc.caset (windowPayload c.colStart c.colEnd)) = 14 := rfl
  have hraset : scriptCost (cmdFrame c.opc.raset (windowPayload c.rowStart c.rowEnd)) = 14 := rfl
  have hramwr : scriptCost (cmdFrame c.opc.ramwr []) = 5 := rfl
  have hopen : scriptCost [.setCs .asserted, .setDc .data] = 2 := rfl
  have hclose : scriptCost [.setCs .released] = 1 := rfl
  rw [displayScript, streamScript]
  simp only [scriptCost_append, hcaset, hraset, hramwr, hopen, hclose, scriptCost_txPix, List.length_range]
  omega

section Stream

variable {c : Config} {fb : Fb} {ps : List Pixel} (l : Lines) (hlen : ps.length = c.cells)
  (hcells : ∀ i, i < c.cells → Fb.read i fb = ps[i]?)

include hlen hcells

/-- The stream emits its trace line for the pixels the cells hold (42_wire_protocol.md R174). -/
theorem eventsOf_streamScript :
    eventsOf c fb (streamScript c) l = (TraceLine.stream (streamBytes c.wireOrder ps)).events l.rate := by
  have hbytes := eventsOf_stream c fb { l with csOut := .asserted, dcOut := .driven .data } ps 0
    (fun i hi => by rw [Nat.zero_add]; exact hcells i (hlen ▸ hi))
  rw [hlen, Nat.mul_zero, ← List.range_eq_range'] at hbytes
  simp only [streamScript, eventsOf_append, eventsOf, MicroOp.event, linesAfter_cons, linesAfter_nil, MicroOp.onLines,
    hbytes, TraceLine.events]
  rfl

/-- The DISPLAY script emits the trace of 43_sequences.md R197 for the pixels the cells hold. -/
theorem eventsOf_displayScript : eventsOf c fb (displayScript c) l = traceOf l.rate (displayTrace c ps) := by
  simp only [displayScript, eventsOf_append, eventsOf_cmdFrame, linesAfter_append, linesAfter_cmdFrame,
    eventsOf_streamScript _ hlen hcells]
  simp [traceOf, displayTrace, windowPayload]

end Stream

/-- DISPLAY from its acceptance to the end of its script. -/
theorem runSteps_display {s : State} {r : Request} (hp : s.phase ≠ .uninit) (hs : s.script = [])
    (hw : s.wait = .none) (hh : s.halted = false) (hr : s.req = some r) (hop : r.op = 0x02) (ht : s.turns = [])
    (hx : s.xportReady = true) (hfull : FbFull s) :
    runSteps (37 + 4 * s.cfg.cells) s = .next { s with
      csOut := .released, dcOut := .driven .data, req := none, script := [],
      traceRev := (eventsOf s.cfg s.fb (displayScript s.cfg) s.lines).reverse ++ s.traceRev } := by
  have haccept := (step_accept hs hw hh hr ht).trans (accept_display hop hp)
  have hrun := runSteps_script (displayScript s.cfg) [] { s with req := none, script := displayScript s.cfg }
    (List.append_nil _).symm hw hh ht hx (fun ⟨d, hd⟩ => by simpa using mem_displayScript hd)
    (clearFb_not_mem_displayScript s.cfg) (fun k hk => by
      have hlt : k < 2 * s.cfg.cells := by simpa using mem_displayScript hk
      have hcell : k / 2 < s.cfg.cells := by omega
      exact ⟨hcell, hfull _ hcell⟩)
  rw [scriptCost_displayScript, linesAfter_displayScript_eq] at hrun
  rw [show 37 + 4 * s.cfg.cells = 36 + 4 * s.cfg.cells + 1 by omega, runSteps_succ _ haccept]
  exact hrun

/-- Settles O55: DISPLAY's run, with the events of the pixels in the cells. -/
theorem displaySendsTheWholeFrameBuffer : Obligations.DisplaySendsTheWholeFrameBuffer := by
  intro s r ps hp hs hw hh hr hop ht hx hlen hcells
  have hfull : FbFull s := fun i hi => by simp [hcells i hi, hlen, hi]
  have hevents := eventsOf_displayScript s.lines hlen hcells
  refine ⟨_, runSteps_display hp hs hw hh hr hop ht hx hfull, ?_, ?_⟩
  · exact (trace_of_traceRev rfl).trans (congrArg _ hevents)
  · simp only [hs]

/-- Settles O56: FILL_RECT of the whole buffer is CLEAR, and DISPLAY sends what every cell then holds. -/
theorem fillThenDisplayStreamsTheEncodedColour : Obligations.FillThenDisplayStreamsTheEncodedColour := by
  refine ⟨fun s r rgb s' hp hwf hfb hexec hs hw hh ht hx hop => ?_, by decide⟩
  rw [exec_fillRect_whole hp hwf] at hexec
  cases hexec
  have hcells : ∀ i, i < s.cfg.cells →
      Fb.read i (fillAll (encodeRgb rgb) s).fb = (List.replicate s.cfg.cells (encodeRgb rgb))[i]? := fun i hi => by
    rw [read_fillAll hfb, if_pos hi, List.getElem?_replicate_of_lt hi]
  obtain ⟨t, hrun, htrace, -⟩ := displaySendsTheWholeFrameBuffer { fillAll (encodeRgb rgb) s with req := some r } r
    (List.replicate s.cfg.cells (encodeRgb rgb)) hp hs hw hh rfl hop ht hx List.length_replicate hcells
  exact ⟨t, hrun, htrace⟩

end Sys2Proof.Machine

/-! ## Host sequences (43_sequences.md section 3) -/

namespace Sys2Proof.Machine

/-- An idle, unhalted block with an empty port, no turn listed and both fairness assumptions: HOST moves next. -/
structure Awaiting (s : State) : Prop where
  inv : Inv s
  script : s.script = []
  wait : s.wait = .none
  halted : s.halted = false
  req : s.req = none
  turns : s.turns = []
  xport : s.xportReady = true
  timer : s.timerReady = true

/-! ### Runs keep the invariant -/

theorem inv_runSteps {n : Nat} {s t : State} (h : runSteps n s = .next t) (hinv : Inv s) : Inv t := by
  induction n generalizing s with
  | zero => cases h; exact hinv
  | succ n ih =>
    obtain ⟨hcompletes, -⟩ := noStepStopsUnderTheInvariant
    obtain ⟨u, hu⟩ := hcompletes s hinv
    rw [runSteps_succ n hu] at h
    exact ih h (everyStepKeepsTheInvariant s u hinv hu)

/-! ### A legal request raises no fault -/

theorem rectFits_of_legal {r : Request} (h : LegalWhenActive r) (hop : r.op = 0x05 ∨ r.op = 0x06) :
    rectFits r.x r.y r.wd r.ht = true := by
  obtain ⟨-, -, hsums⟩ := h
  obtain ⟨hx, hx', hy, hy'⟩ := hsums hop
  exact (rectFits_iff _ _ _ _).mpr ⟨⟨hx, hx'⟩, hy, hy'⟩

theorem accept_encode {r : Request} (hop : r.op = 0x07) (s : State) :
    accept r s = .next { s with req := none, rPix := some (encodeRgb r.rgb) } := by
  obtain ⟨-, -, -, -, -, -, hdecode⟩ := decodeRequest_rows r
  rw [accept, hdecode hop]
  rfl

/-- A legal request of an active block passes every check (60_exceptions.md R221 to R224). -/
theorem accept_legal {r : Request} {s : State} (h : LegalWhenActive r) (hp : s.phase = .active) :
    ∃ t, accept r s = .next t ∧ t.fault = s.fault := by
  have hne : (State.phase { s with req := none }) ≠ .uninit := by simp [hp]
  obtain ⟨-, b2, b3, b4, b5, b6, -⟩ := decodeRequest_rows r
  have hop : r.op = 2 ∨ r.op = 3 ∨ r.op = 4 ∨ r.op = 5 ∨ r.op = 6 ∨ r.op = 7 := by
    obtain ⟨h2, h7, -⟩ := h
    bv_omega
  rw [accept]
  rcases hop with hop | hop | hop | hop | hop | hop
  · rw [b2 hop]
    exact ⟨_, exec_display_of_ne hne, rfl⟩
  · rw [b3 hop]
    exact ⟨_, exec_clear_of_ne hne _, rfl⟩
  · rw [b4 hop]
    exact ⟨_, exec_drawPoint_of_ne hne _ _ _, by rw [plot_eq]⟩
  · rw [b5 hop]
    exact ⟨_, exec_drawRectOutline_of_fits hne (rectFits_of_legal h (.inl hop)) _, rfl⟩
  · rw [b6 hop]
    exact ⟨_, exec_fillRect_of_fits hne (rectFits_of_legal h (.inr hop)) _, rfl⟩
  · exact ⟨_, accept_encode hop s, rfl⟩

/-! ### Serving one request -/

/-- HOST presents its next request. -/
theorem Awaiting.present {s : State} {r : Request} {rest : List Request} (h : Awaiting s) (hhost : s.host = r :: rest) :
    step s = .next { s with req := some r, host := rest } := by
  simp [step, nextStep, h.turns, defaultTurn, seqEnabled, h.wait, h.script, h.req, turn, hostPresents, hhost]

/-- A request whose run ends idle and unhalted leaves the block awaiting the next one. -/
theorem Awaiting.served {s t : State} {r : Request} {rest : List Request} {n : Nat} (h : Awaiting s)
    (hhost : s.host = r :: rest) (hrun : runSteps n { s with req := some r, host := rest } = .next t)
    (hs : t.script = []) (hw : t.wait = .none) (hfault : t.fault = s.fault) (hr : t.req = none)
    (ht : t.turns = s.turns) (hx : t.xportReady = s.xportReady) (hd : t.timerReady = s.timerReady) :
    runSteps (n + 1) s = .next t ∧ Awaiting t := by
  have hall : runSteps (n + 1) s = .next t := (runSteps_succ n (h.present hhost)).trans hrun
  refine ⟨hall, inv_runSteps hall h.inv, hs, hw, ?_, hr, ht.trans h.turns, hx.trans h.xport, hd.trans h.timer⟩
  rw [State.halted, hfault]
  exact h.halted

/-- A request that is neither BEGIN nor DISPLAY, and raises no fault, is served in two steps. -/
theorem Awaiting.serve_immediate {s t : State} {r : Request} {rest : List Request} (h : Awaiting s)
    (hhost : s.host = r :: rest) (h1 : r.op ≠ 0x01) (h2 : r.op ≠ 0x02)
    (haccept : accept r { s with req := some r, host := rest } = .next t) (hfault : t.fault = s.fault) :
    runSteps 2 s = .next t ∧ Awaiting t ∧ t.host = rest ∧ t.lines = s.lines ∧ t.trace = s.trace := by
  have ha := accepted_of_next haccept
  have hstep := (step_accept (s := { s with req := some r, host := rest }) h.script h.wait h.halted rfl
    h.turns).trans haccept
  obtain ⟨hrun, hawait⟩ := h.served hhost ((runSteps_succ 0 hstep).trans (runSteps_zero t))
    ((ha.script h1 h2).trans h.script) (ha.wait.trans h.wait) hfault ha.req ha.turns ha.xportReady ha.timerReady
  exact ⟨hrun, hawait, ha.host, ha.lines, congrArg List.reverse ha.traceRev⟩

/-- With no script and no wait, ACTIVE means ready and UNINIT means not begun. -/
theorem Awaiting.fbFull {s : State} (h : Awaiting s) (hp : s.phase = .active) : FbFull s := by
  rcases h.inv.notBegun_or_ready h.script with hn | hr
  · rw [hn.phase] at hp; cases hp
  · exact hr.fbFull

theorem Awaiting.rate_slow {s : State} (h : Awaiting s) (hp : s.phase = .uninit) : s.rate = .slow := by
  rcases h.inv.notBegun_or_ready h.script with ⟨-, -, hl, -⟩ | hr
  · exact congrArg Lines.rate hl
  · rw [hr.phase] at hp; cases hp

/-- An active block serves any legal request. -/
theorem Awaiting.serve_legal {s : State} {r : Request} {rest : List Request} (h : Awaiting s)
    (hhost : s.host = r :: rest) (hp : s.phase = .active) (hlegal : LegalWhenActive r) :
    ∃ n t, runSteps n s = .next t ∧ Awaiting t ∧ t.host = rest ∧ t.phase = .active := by
  by_cases h2 : r.op = 0x02
  · have hrun := runSteps_display (s := { s with req := some r, host := rest }) (by simp [hp]) h.script h.wait h.halted
      rfl h2 h.turns h.xport (h.fbFull hp)
    obtain ⟨hall, hawait⟩ := h.served hhost hrun rfl h.wait rfl rfl rfl rfl rfl
    exact ⟨_, _, hall, hawait, rfl, hp⟩
  · have h1 : r.op ≠ 0x01 := by
      obtain ⟨hge, -⟩ := hlegal
      rintro hop
      rw [hop] at hge
      exact absurd hge (by decide)
    obtain ⟨t, haccept, hfault⟩ := accept_legal (s := { s with req := some r, host := rest }) hlegal hp
    obtain ⟨hrun, hawait, ht, hl, -⟩ := h.serve_immediate hhost h1 h2 haccept hfault
    exact ⟨2, t, hrun, hawait, ht, (congrArg Lines.phase hl).trans hp⟩

/-- A block in UNINIT serves BEGIN and is then active. -/
theorem Awaiting.serve_begin {s : State} {r : Request} {rest : List Request} (h : Awaiting s)
    (hhost : s.host = r :: rest) (hp : s.phase = .uninit) (hop : r.op = 0x01) :
    ∃ n t, runSteps n s = .next t ∧ Awaiting t ∧ t.host = rest ∧ t.phase = .active := by
  have hrun := runSteps_begin (s := { s with req := some r, host := rest }) hp h.script h.wait h.halted rfl hop h.turns
    h.xport h.timer
  obtain ⟨hall, hawait⟩ := h.served hhost hrun rfl h.wait rfl rfl rfl rfl rfl
  exact ⟨_, _, hall, hawait, rfl, rfl⟩

/-! ### Serving a sequence -/

/-- An active block serves any legal requests to the last. -/
theorem Awaiting.serve_all {s : State} (h : Awaiting s) (hp : s.phase = .active)
    (hlegal : ∀ r ∈ s.host, LegalWhenActive r) :
    ∃ n t, runSteps n s = .next t ∧ Awaiting t ∧ t.host = [] ∧ t.phase = .active := by
  induction hhost : s.host generalizing s with
  | nil => exact ⟨0, s, rfl, h, hhost, hp⟩
  | cons r rest ih =>
    rw [hhost] at hlegal
    obtain ⟨m, u, hm, hu, huhost, hup⟩ := h.serve_legal hhost hp (hlegal r (.head _))
    obtain ⟨n, t, hn, ht⟩ := ih hu hup (fun q hq => hlegal q (.tail _ (huhost ▸ hq))) huhost
    exact ⟨m + n, t, (runSteps_add n hm).trans hn, ht⟩

/-- ENCODEs are served in any phase, and leave the lines and TRACE as they are. -/
theorem Awaiting.serve_encodes {s : State} (h : Awaiting s) {pre post : List Request} (hhost : s.host = pre ++ post)
    (hpre : ∀ r ∈ pre, r.op = 0x07) :
    ∃ n t, runSteps n s = .next t ∧ Awaiting t ∧ t.host = post ∧ t.lines = s.lines ∧ t.trace = s.trace := by
  induction pre generalizing s with
  | nil => exact ⟨0, s, rfl, h, hhost, rfl, rfl⟩
  | cons r pre ih =>
    have hop : r.op = 0x07 := hpre r (.head _)
    obtain ⟨hm, hu, huhost, hul, hutrace⟩ := h.serve_immediate hhost (by rw [hop]; decide) (by rw [hop]; decide)
      (accept_encode hop _) rfl
    obtain ⟨n, t, hn, ht, hthost, htl, httrace⟩ := ih hu huhost fun q hq => hpre q (.tail _ hq)
    exact ⟨2 + n, t, (runSteps_add n hm).trans hn, ht, hthost, htl.trans hul, httrace.trans hutrace⟩

theorem Awaiting.goodEnd {s : State} (h : Awaiting s) (hhost : s.host = []) : GoodEnd s :=
  ⟨⟨hhost, h.req, (busy_eq_false_iff s).mpr ⟨h.script, h.wait⟩⟩, h.halted⟩

/-- Legal requests bring an active block to a good end, active and full. -/
theorem Awaiting.goodEnd_of_legal {s : State} (h : Awaiting s) (hp : s.phase = .active)
    (hlegal : ∀ r ∈ s.host, LegalWhenActive r) :
    ∃ n t, runSteps n s = .next t ∧ GoodEnd t ∧ t.phase = .active ∧ FbFull t := by
  obtain ⟨n, t, hn, ht, hthost, htp⟩ := h.serve_all hp hlegal
  exact ⟨n, t, hn, ht.goodEnd hthost, htp, ht.fbFull htp⟩

/-- Settles O57: HOST's requests are served one after the other, ENCODEs and then BEGIN first where the block is in
UNINIT. -/
theorem legalHostSequencesComeToAGoodEnd : Obligations.LegalHostSequencesComeToAGoodEnd := by
  intro s hinv hidle hh hr ht hx hd
  obtain ⟨hs, hw⟩ := (busy_eq_false_iff s).mp hidle
  have h : Awaiting s := ⟨hinv, hs, hw, hh, hr, ht, hx, hd⟩
  refine ⟨h.goodEnd_of_legal, fun pre b post hp hhost hpre hb hpost => ?_, fun hp hencodes => ?_⟩
  · obtain ⟨m, u, hm, hu, huhost, hul, -⟩ := h.serve_encodes hhost hpre
    obtain ⟨k, v, hk, hv, hvhost, hvp⟩ := hu.serve_begin huhost ((congrArg Lines.phase hul).trans hp) hb
    obtain ⟨n, t, hn, hend⟩ := hv.goodEnd_of_legal hvp (hvhost ▸ hpost)
    exact ⟨m + (k + n), t, (runSteps_add _ hm).trans ((runSteps_add n hk).trans hn), hend⟩
  · obtain ⟨n, t, hn, ht, hthost, htl, httrace⟩ := h.serve_encodes (List.append_nil _).symm hencodes
    exact ⟨n, t, hn, ht.goodEnd hthost, (congrArg Lines.phase htl).trans hp, httrace⟩

end Sys2Proof.Machine

/-! ## Reading TRACE (30_encoding.md R78, R88) -/

namespace Sys2Proof.Machine

/-- What a reader of TRACE gets from a line: a command with its payload, a stream, or nothing. -/
def TraceLine.transaction : TraceLine → Option Transaction
  | .cmd op payload => some (.command op payload)
  | .stream bytes => some (.data bytes)
  | .rst _ => none
  | .delay _ => none
  | .rate _ => none

/-- Data bytes up to the release of chip-select complete the open command. -/
theorem readTraceFrom_command (r : Rate) (op : Byte) (payload bs : List Byte) (es : List Event) :
    readTraceFrom (some (.command op payload)) (bs.map (.byte · (.driven .data) r) ++ .cs .released :: es) =
      .command op (payload ++ bs) :: readTraceFrom none es := by
  induction bs generalizing payload with
  | nil => simp [readTraceFrom]
  | cons b bs ih => simp [readTraceFrom, Transaction.addByte, ih]

theorem readTraceFrom_data (r : Rate) (bytes bs : List Byte) (es : List Event) :
    readTraceFrom (some (.data bytes)) (bs.map (.byte · (.driven .data) r) ++ .cs .released :: es) =
      .data (bytes ++ bs) :: readTraceFrom none es := by
  induction bs generalizing bytes with
  | nil => simp [readTraceFrom]
  | cons b bs ih => simp [readTraceFrom, Transaction.addByte, ih]

/-- A line's events are read as its transaction, and nothing is left open. -/
theorem readTraceFrom_events (r : Rate) {l : TraceLine} (h : l ≠ .stream []) (es : List Event) :
    readTraceFrom none (l.events r ++ es) = l.transaction.toList ++ readTraceFrom none es := by
  cases l with
  | rst _ | delay _ | rate _ => rfl
  | cmd op payload =>
    cases payload with
    | nil => rfl
    | cons b bs =>
      have hread := readTraceFrom_command r op [] (b :: bs) es
      simpa [TraceLine.events, TraceLine.transaction, readTraceFrom] using hread
  | stream bytes =>
    cases bytes with
    | nil => exact absurd rfl h
    | cons b bs =>
      have hread := readTraceFrom_data r [b] bs es
      simpa [TraceLine.events, TraceLine.transaction, readTraceFrom, Transaction.addByte] using hread

/-- Settles O58: line by line, the reader gets each line's transaction. -/
theorem readingATraceGivesBackItsTransactions : Obligations.ReadingATraceGivesBackItsTransactions := by
  intro r ls hls
  change readTrace (traceOf r ls) = ls.filterMap TraceLine.transaction
  induction ls with
  | nil => rfl
  | cons l ls ih =>
    have hl : l ≠ .stream [] := fun h => hls (h ▸ .head _)
    have hrest := ih fun h => hls (.tail _ h)
    rw [readTrace, traceOf] at hrest
    rw [readTrace, traceOf, List.flatMap_cons, readTraceFrom_events r hl, hrest]
    cases htrans : l.transaction with
    | none => rw [List.filterMap_cons_none htrans]; rfl
    | some t => rw [List.filterMap_cons_some htrans]; rfl

end Sys2Proof.Machine
